-- ==== Sys2Proof/Word.lean ====
section
/-! DEFINITION. The command and response word, and the plainest arithmetic of the spec's notation
(00_scope.md rules R11 and R12). Every other quantity of this hardware is an unsigned mathematical
integer (R12), so it is a `Nat` here; a field of N bits is kept below 2^N by an explicit `trunc`. -/

namespace Sys2Proof

/-- A command word in, or the data word of a response out: 32 bits (rules R48 and R50). -/
abbrev Word := BitVec 32

/-- `trunc_n(v)`: the low `n` bits of `v`, that is `v mod 2^n` (rule R11). -/
def trunc (n v : Nat) : Nat := v % 2 ^ n

/-- `(a - b) mod n`, the non-negative remainder "even when `a` is negative" (rule R12). -/
def subMod (a b n : Nat) : Nat := (((a : Int) - (b : Int)) % (n : Int)).toNat

/-- `|a - b|`, the absolute difference of two mathematical integers (rule R12). -/
def absDiff (a b : Nat) : Nat := if a ≤ b then b - a else a - b

end Sys2Proof
end

