-- ==== Sys2Proof/Config.lean ====
section
/-! DEFINITION. The configuration of a block: every named parameter of 00_scope.md rules R6 to R9 with
its admission rule R10, and the free values, which the spec leaves open (93_implementation_defined.md).
A configuration is fixed when the block is built and no transaction changes it (rules R29, R44). -/

namespace Sys2Proof

/-- The three inputs of the block (20_memory.md rule R38): the producer (EDGE events), the consumer or
host (command words), and the reset input. -/
inductive Source where
  | producer
  | consumer
  | resetInput
  deriving DecidableEq, Repr, Inhabited

/-- The named parameters (rules R6 to R9). The spec's literals are unaudited, so each is a field. -/
structure Config where
  /-- `SHORT_US`, R6 -/
  shortUs : Nat
  /-- `LONG_US`, R6 -/
  longUs : Nat
  /-- `FIXED_US`, R6 -/
  fixedUs : Nat
  /-- `TOL_STRICT`, R6 -/
  tolStrict : Nat
  /-- `TOL_FUZZY_SL`, R6 -/
  tolFuzzySl : Nat
  /-- `TOL_FUZZY_FX`, R6 (OPEN) -/
  tolFuzzyFx : Nat
  /-- `TERM_US`, R6 -/
  termUs : Nat
  /-- `FIXED_TERM_HI`, R6 -/
  fixedTermHi : Nat
  /-- `SCR_CAP`, R7 -/
  scrCap : Nat
  /-- `ERR_LIMIT`, R7 -/
  errLimit : Nat
  /-- `MIN_PKT`, R7 -/
  minPkt : Nat
  /-- `NORM_MARGIN`, R7 -/
  normMargin : Nat
  /-- `IDLE_FUZZY`, R7 -/
  idleFuzzy : Bool
  /-- `HDR_SLOTS`, R8 -/
  hdrSlots : Nat
  /-- `RING_CAP`, R8 (OPEN) -/
  ringCap : Nat
  /-- `OFFS_CAP`, R8 (OPEN) -/
  offsCap : Nat
  /-- `CLK_W`, R9 -/
  clkW : Nat
  /-- `MS_W`, R9 -/
  msW : Nat
  /-- `SLOT_W`, R9 -/
  slotW : Nat
  deriving DecidableEq, Repr

namespace Config

/-- The reference configuration of rule R8: every default of R6, R7 and R9, with the reference values
of the three OPEN parameters. DESIGN CHOICE (log entry 1): a block reset with nothing said about its
configuration is this one; every statement is about all admitted configurations. -/
def reference : Config where
  shortUs := 550
  longUs := 1400
  fixedUs := 975
  tolStrict := 210
  tolFuzzySl := 500
  tolFuzzyFx := 500
  termUs := 5000
  fixedTermHi := 6000
  scrCap := 120
  errLimit := 10
  minPkt := 64
  normMargin := 1000
  idleFuzzy := false
  hdrSlots := 2
  ringCap := 256
  offsCap := 8
  clkW := 32
  msW := 32
  slotW := 32

/-- Rule R10: a configuration is admitted only if every one of its seven items holds. The lines below
are the items, in order. -/
abbrev wf (c : Config) : Prop :=
  c.scrCap + c.hdrSlots ≤ c.ringCap ∧
  (c.ringCap ≤ 65535 ∧ 2 ≤ c.offsCap ∧ c.offsCap ≤ 256) ∧
  (16 ≤ c.slotW ∧ c.slotW ≤ 32) ∧
  c.termUs + c.normMargin < 2 ^ c.clkW ∧
  (2 ≤ c.minPkt ∧ c.minPkt ≤ c.scrCap ∧ 1 ≤ c.errLimit) ∧
  (c.termUs < c.fixedTermHi ∧ c.fixedUs + c.tolStrict < c.termUs ∧ c.longUs + c.tolStrict < c.termUs ∧
    c.shortUs + c.tolFuzzySl < c.termUs ∧ c.longUs + c.tolFuzzySl < c.termUs) ∧
  c.tolStrict < c.shortUs

/-- What the spec's rules rest on beyond the letter of R10, each with the passage that rests on it
(DEDUCED, log entry 3): a packet's footprint covers its two header slots (R21: the durations start at
slot `s + 2`), a strict SHORT lies below the terminator (the purpose R10 item 6 states), and a slot
holds every stored duration (the purpose R10 item 3 states). It is no part of admission: a premise of
the invariant only. Every default configuration meets it. -/
abbrev coherent (c : Config) : Prop :=
  c.wf ∧ 2 ≤ c.hdrSlots ∧ c.shortUs + c.tolStrict < c.termUs ∧
    c.termUs + c.normMargin < 2 ^ c.slotW

/-- The configuration string of rule R2, for example `LRCB-R256-O8`. -/
def name (c : Config) : String :=
  "LRCB-R" ++ toString c.ringCap ++ "-O" ++ toString c.offsCap

/-- FREE VALUE (log entry 2): what `LAST_US` holds after a reset, "a free draw" (rules R19, R109, R110).
The argument is the draw's number. No body: nothing constrains it. -/
opaque freeLastUs : Nat → Nat

/-- FREE VALUE (log entry 4): which ready input goes first when several are pending, which the spec
leaves open (20_memory.md rule R39). The argument is the draw's number. No body: nothing constrains it. -/
opaque freeTurn : Nat → Source

end Config
end Sys2Proof
end

