-- ==== Sys2Proof/Syntax.lean ====
section
/-! DEFINITION. What the block is given: the nine commands of spec/opcode_table.json (30_encoding.md
rule R51), the edge event (R47), the three transaction kinds (R46), and the lines of a transaction
script (R55, R56). -/

namespace Sys2Proof

/-- The tolerance mode, "binary flag, *strict* or *fuzzy*" (rule R49: `FZ`, 0 strict, 1 fuzzy). -/
inductive Tolerance where
  | strict
  | fuzzy
  deriving DecidableEq, Repr

/-- The nine commands (rule R51), one constructor per row of the opcode table. `idx` and `dur` are
unsigned numbers (R49), so `Nat`; their ranges are in WellFormed.lean. -/
inductive Instr where
  /-- NOP, format N, rule R95 -/
  | nop
  /-- START, format N, rule R81 -/
  | start
  /-- STOP, format N, rule R82 -/
  | stop
  /-- POP, format N, rules R88 and R89 -/
  | pop
  /-- GET_TS, format N, rule R91 -/
  | getTs
  /-- GET_LEN, format N, rule R90 -/
  | getLen
  /-- GET_DUR, format I, rule R92 -/
  | getDur (idx : Nat)
  /-- CLASSIFY, format C, rule R65 -/
  | classify (fz : Tolerance) (dur : Nat)
  /-- STATUS, format N, rule R96 -/
  | status
  deriving DecidableEq, Repr

/-- The two clock samples an EDGE carries (rule R47). It has no opcode and no other field. -/
structure EdgeEvent where
  /-- `t_us`, the microsecond clock at the edge -/
  tUs : Nat
  /-- `t_ms`, the millisecond clock at the edge -/
  tMs : Nat
  deriving DecidableEq, Repr

/-- The three kinds of input transaction (rule R46). A CMD carries any 32-bit word, legal or not. -/
inductive Transaction where
  | edge (e : EdgeEvent)
  | cmd (w : Word)
  | reset
  deriving DecidableEq, Repr

/-- The input a transaction comes through (rules R38 and R46). -/
def Transaction.source : Transaction → Source
  | .edge _ => .producer
  | .cmd _ => .consumer
  | .reset => .resetInput

/-- A line of a transaction script (rule R55), with the pseudo forms of rule R56. -/
inductive ScriptLine where
  /-- a command by its mnemonic, `POP`, `GET_DUR idx`, `CLASSIFY fz, dur` -/
  | command (i : Instr)
  /-- `EDGE t_us, t_ms` -/
  | edge (e : EdgeEvent)
  /-- `RESET` -/
  | reset
  /-- `.WORD w`, the only spelling of an illegal word -/
  | rawWord (w : Word)
  /-- `CLS.S dur`, expands to `CLASSIFY 0, dur` -/
  | clsStrict (dur : Nat)
  /-- `CLS.F dur`, expands to `CLASSIFY 1, dur` -/
  | clsFuzzy (dur : Nat)
  /-- `.T0 t`, sets the edge time base -/
  | timeBase (t : Nat)
  /-- `PULSE d`, an edge `d` microseconds after the time base, which moves with it -/
  | pulse (d : Nat)
  deriving DecidableEq, Repr

end Sys2Proof
end

