-- ==== Sys2Proof/WellFormed.lean ====
section
/-! DEFINITION. Which commands, edge events and script lines are well formed: every operand within
the range its field admits (30_encoding.md rules R47, R49 and R55). The admission of a configuration
(R10) is `Config.wf` in Config.lean. -/

namespace Sys2Proof

/-- `IDX` is 16 bits wide and `DUR` 23 (rules R48 and R49); no other command has an operand. -/
abbrev Instr.wf : Instr → Prop
  | .nop => True
  | .start => True
  | .stop => True
  | .pop => True
  | .getTs => True
  | .getLen => True
  | .getDur idx => idx < 2 ^ 16
  | .classify _ dur => dur < 2 ^ 23
  | .status => True

/-- Decides well-formedness of a command. -/
def Instr.isWf : Instr → Bool
  | .getDur idx => decide (idx < 2 ^ 16)
  | .classify _ dur => decide (dur < 2 ^ 23)
  | .nop | .start | .stop | .pop | .getTs | .getLen | .status => true

/-- The two samples are `CLK_W` and `MS_W` bits wide (rule R47). -/
abbrev EdgeEvent.wf (c : Config) (e : EdgeEvent) : Prop :=
  e.tUs < 2 ^ c.clkW ∧ e.tMs < 2 ^ c.msW

/-- A script line is admitted only with its numbers in range (rule R55); `.T0` and `PULSE` take any
number, because their time base is a mathematical integer (R56). -/
def ScriptLine.isWf (c : Config) : ScriptLine → Bool
  | .command i => i.isWf
  | .edge e => decide (e.wf c)
  | .reset => true
  | .rawWord _ => true
  | .clsStrict dur => decide (dur < 2 ^ 23)
  | .clsFuzzy dur => decide (dur < 2 ^ 23)
  | .timeBase _ => true
  | .pulse _ => true

end Sys2Proof
end

