-- ==== Sys2Proof/Decode.lean ====
section
/-! DEFINITION. The decoder of 30_encoding.md rule R53, total on every 32-bit word and rejecting by
name each kind of illegal word of rule R52; after it the encoder, from the formats of rule R48 and the
opcode map of rule R51; and the host's entry `decodeTableWord`. -/

namespace Sys2Proof

/-- `w[hi:lo]`, bits `hi` down to `lo` inclusive, read as an unsigned number (rule R11). -/
def bits (w : Word) (hi lo : Nat) : Nat := w.toNat / 2 ^ lo % 2 ^ (hi - lo + 1)

/-- Why a word is illegal: the three items of rule R52, in its order. -/
inductive IllegalWord where
  /-- item 1: `OP >= 0x09` -/
  | unassignedOpcode
  /-- item 2: a format N opcode with `w[23:0] != 0` -/
  | operandNotZero
  /-- item 3: `OP = 0x06` with `w[23:16] != 0` -/
  | indexHighBitsNotZero
  deriving DecidableEq, Repr

/-- The format N commands by their opcode (rule R51). -/
def formatNCommand : Nat → Option Instr
  | 0x00 => some .nop
  | 0x01 => some .start
  | 0x02 => some .stop
  | 0x03 => some .pop
  | 0x04 => some .getTs
  | 0x05 => some .getLen
  | 0x08 => some .status
  | _ => none

/-- The tolerance mode a 1-bit `FZ` field stands for (rule R49). -/
def toleranceOfBit (b : Nat) : Tolerance := if b = 1 then .fuzzy else .strict

/-- Rule R53, line by line. -/
def decode (w : Word) : Except IllegalWord Instr :=
  if bits w 31 24 = 0x07 then .ok (.classify (toleranceOfBit (bits w 23 23)) (bits w 22 0))
  else if bits w 31 24 = 0x06 then
    if bits w 23 16 = 0 then .ok (.getDur (bits w 15 0)) else .error .indexHighBitsNotZero
  else
    match formatNCommand (bits w 31 24) with
    | some i => if bits w 23 0 = 0 then .ok i else .error .operandNotZero
    | none => .error .unassignedOpcode

/-- The `OP` field of each command (rule R51). -/
def opcode : Instr → Nat
  | .nop => 0x00
  | .start => 0x01
  | .stop => 0x02
  | .pop => 0x03
  | .getTs => 0x04
  | .getLen => 0x05
  | .getDur _ => 0x06
  | .classify _ _ => 0x07
  | .status => 0x08

/-- The `FZ` bit of a tolerance mode (rule R49). -/
def toleranceBit : Tolerance → Nat
  | .strict => 0
  | .fuzzy => 1

/-- `w[23:0]` of each command, by its format (rule R48): 0 for format N, `IDX` for format I,
`{FZ, DUR}` for format C. -/
def operandField : Instr → Nat
  | .nop => 0
  | .start => 0
  | .stop => 0
  | .pop => 0
  | .getTs => 0
  | .getLen => 0
  | .getDur idx => idx
  | .classify fz dur => toleranceBit fz * 2 ^ 23 + dur
  | .status => 0

/-- The word of a well-formed command: `(OP << 24) | w[23:0]` (rules R48 and R51). -/
def encode (i : Instr) : Word := BitVec.ofNat 32 (opcode i * 2 ^ 24 + operandField i)

/-- The command this decoder reads from a word given in the opcode table's bit numbering. The
hardware's word is one 32-bit word with no byte order (rules R33, R48), so the table's bit k is bit k of
the word; the bits from `nbits` up are 0. -/
def decodeTableWord (nbits w : Nat) : Option Instr :=
  if nbits ≤ 32 then
    match decode (BitVec.ofNat 32 (trunc nbits w)) with
    | .ok i => some i
    | .error _ => none
  else none

end Sys2Proof
end

