-- ==== Sys2Proof/Machine/State.lean ====
section
/-! DEFINITION. The state of the block (10_state.md, rule R29), what stands at its ports (the pending
inputs and the responses given), the reasons a step can stop, and the state after reset. -/

namespace Sys2Proof.Machine

/-- The capture state `CST` (rule R18): 0 IDLE, 1 ACCUMULATING. -/
inductive CaptureState where
  | idle
  | accumulating
  deriving DecidableEq, Repr

/-- The internal memories of the block (20_memory.md rule R32). -/
inductive Space where
  | scr
  | ring
  | offs
  | outDur
  /-- the one register that resets to `⊥`, `OUT_TS` -/
  | outTs
  deriving DecidableEq, Repr

/-- A memory of whole elements (rule R31): the (index, value) pairs written since reset, indices
strictly rising. An index that is not listed holds `⊥`, "the content of an array element never written
since reset" (rule R13). -/
abbrev Memory := List (Nat × Nat)

/-- `STS`, the 2-bit status of a response (rule R50). -/
inductive Sts where
  | ok
  | empty
  | illegal
  | range
  deriving DecidableEq, Repr

/-- The response to a command: the pair `(STS, DATA)` (rule R50). -/
structure Response where
  sts : Sts
  data : Word
  deriving DecidableEq, Repr

/-- The state. The first group is the configuration, which no transaction changes; the second is rule
R29's table, "the complete state of the block"; the third is the model's own: what stands at the
block's three inputs, the arbitration, and the responses already given (log entries 1, 4, 10). -/
structure State where
  /-- the configuration this block was built with (R10, R29); constant -/
  cfg : Config
  /-- `EN` (R17) -/
  en : Bool
  /-- `CST` (R18) -/
  cst : CaptureState
  /-- `LAST_US` (R19) -/
  lastUs : Nat
  /-- `SCR` (R20) -/
  scr : Memory
  /-- `SWP` (R20) -/
  swp : Nat
  /-- `SFILL` (R20) -/
  sfill : Nat
  /-- `RING` (R21) -/
  ring : Memory
  /-- `OFFS` (R22) -/
  offs : Memory
  /-- `QHEAD` (R22) -/
  qhead : Nat
  /-- `QTAIL` (R22) -/
  qtail : Nat
  /-- `QUSED` (R23) -/
  qused : Nat
  /-- `QWP` (R23) -/
  qwp : Nat
  /-- `OUT_VALID` (R25) -/
  outValid : Bool
  /-- `OUT_LEN` (R25) -/
  outLen : Nat
  /-- `OUT_TS` (R25); `none` is the `⊥` the spec resets it to -/
  outTs : Option Nat
  /-- `OUT_DUR` (R25) -/
  outDur : Memory
  /-- edge events presented and not yet executed, in presentation order (R38, R39) -/
  edges : List EdgeEvent
  /-- command words presented and not yet executed, in presentation order (R38, R39) -/
  cmds : List Word
  /-- resets presented and not yet executed (R38, R109) -/
  resets : Nat
  /-- arbitration decisions the platform has fixed, oldest first; beyond them the choice is free (R39) -/
  turns : List Source
  /-- how many transactions have run: the number of the next free draw -/
  draws : Nat
  /-- the responses given so far, oldest first (R46, R50) -/
  responses : List Response
  deriving DecidableEq, Repr

/-- Why the machine stops with a fault. The spec has no traps (R99): the first reason is the model fault
that R13 names, the other two answer what rules R34 and R83 exclude, and no step from a state with the
invariant of rule R30 raises one. -/
inductive Fault where
  /-- Reading `⊥`, "a *fault* in the model" (R13; 93_implementation_defined.md section 1: treatment
  `fault`, "the model stops with an error"). Raised by the scan, emission, eviction, POP, GET_TS and GET_DUR.
  Safe: the machine stops where the hardware goes on with any value. -/
  | readUnwritten (a : Space)
  /-- An index outside its array (R31, R34: no such element exists). Raised by every element access.
  Safe: the machine stops; rule R34 says that no access leaves its array. DEDUCED, log entry 11. -/
  | noSuchElement (a : Space)
  /-- The eviction loop of push still needs room after `OFFS_CAP` evictions, which rules R80 and R83
  exclude. Raised by EDGE. Safe: the machine stops. DEDUCED, log entry 12. -/
  | evictionUnbounded
  deriving DecidableEq, Repr

/-- Why a step has no meaning. -/
inductive Refusal where
  /-- A command with no meaning yet, by its mnemonic. Raised by `exec` alone. Safe. No arm raises it. -/
  | notModelled (mnemonic : String)
  /-- The configuration violates rule R10: "A model refuses any other configuration: it gives no meaning
  to a block built with it". Raised by `step` alone (DESIGN CHOICE, log entry 15). Safe. -/
  | configNotAdmitted
  deriving DecidableEq, Repr

/-- The machine right after reset (70_reset_and_hazards.md rule R109), in the reference configuration of
rule R8, nothing pending at its inputs. `LAST_US` is the free draw number 0 (R110, log entry 2). -/
def State.reset : State where
  cfg := Config.reference
  en := false
  cst := .idle
  lastUs := trunc Config.reference.clkW (Config.freeLastUs 0)
  scr := []
  swp := 0
  sfill := 0
  ring := []
  offs := []
  qhead := 0
  qtail := 0
  qused := 0
  qwp := 0
  outValid := false
  outLen := 0
  outTs := none
  outDur := []
  edges := []
  cmds := []
  resets := 0
  turns := []
  draws := 0
  responses := []

end Sys2Proof.Machine
end

