-- ==== Sys2Proof/Machine/Ops.lean ====
section
/-! DEFINITION. The shared operations: reading and writing an element of a memory (00_scope.md rule R13,
20_memory.md rules R31 and R34), responding, reset, and taking the next input. The hardware has no
exceptions (R99): its one shared error operation is the response `(ILLEGAL, 0)`. -/

namespace Sys2Proof.Machine

/-! ### Memories -/

/-- What element `i` holds; `none` is `⊥`. -/
def Memory.read : Memory → Nat → Option Nat
  | [], _ => none
  | (j, v) :: m, i => if i = j then some v else Memory.read m i

/-- The memory with `v` in element `i`, in canonical form again. -/
def Memory.write : Memory → Nat → Nat → Memory
  | [], i, v => [(i, v)]
  | (j, u) :: m, i, v =>
    if i < j then (i, v) :: (j, u) :: m
    else if i = j then (i, v) :: m
    else (j, u) :: Memory.write m i v

/-- The canonical form: indices strictly rising. (No entry can equal what an unlisted index reads as,
which is no value at all.) -/
abbrev Memory.wf (m : Memory) : Prop := (m.map Prod.fst).Pairwise (· < ·)

/-- Every listed index is below `cap` and every value below `2^width`. -/
abbrev Memory.fits (cap width : Nat) (m : Memory) : Prop :=
  ∀ c ∈ m, c.1 < cap ∧ c.2 < 2 ^ width

/-- `A[i]`: reads one element of the array `a` of `cap` elements; "Reading `⊥` is a *fault* in the model"
(rule R13). -/
def getAt (a : Space) (cap : Nat) (m : Memory) (i : Nat) : Except Fault Nat :=
  if i < cap then
    match m.read i with
    | some v => .ok v
    | none => .error (.readUnwritten a)
  else .error (.noSuchElement a)

/-- `A[i] <- v`: writes one whole element of the array `a` of `cap` elements (rules R13, R35). -/
def putAt (a : Space) (cap : Nat) (m : Memory) (i v : Nat) : Except Fault Memory :=
  if i < cap then .ok (m.write i v) else .error (.noSuchElement a)

/-- `SCR[i]` (R20) -/
def readScr (s : State) (i : Nat) : Except Fault Nat := getAt .scr s.cfg.scrCap s.scr i

/-- `SCR[i] <- v` (R20) -/
def writeScr (s : State) (i v : Nat) : Except Fault State :=
  match putAt .scr s.cfg.scrCap s.scr i v with
  | .ok m => .ok { s with scr := m }
  | .error f => .error f

/-- `RING[i]` (R21) -/
def readRing (s : State) (i : Nat) : Except Fault Nat := getAt .ring s.cfg.ringCap s.ring i

/-- `RING[i] <- v` (R21) -/
def writeRing (s : State) (i v : Nat) : Except Fault State :=
  match putAt .ring s.cfg.ringCap s.ring i v with
  | .ok m => .ok { s with ring := m }
  | .error f => .error f

/-- `OFFS[i]` (R22) -/
def readOffs (s : State) (i : Nat) : Except Fault Nat := getAt .offs s.cfg.offsCap s.offs i

/-- `OFFS[i] <- v` (R22) -/
def writeOffs (s : State) (i v : Nat) : Except Fault State :=
  match putAt .offs s.cfg.offsCap s.offs i v with
  | .ok m => .ok { s with offs := m }
  | .error f => .error f

/-- `OUT_DUR[i]` (R25) -/
def readOutDur (s : State) (i : Nat) : Except Fault Nat := getAt .outDur s.cfg.scrCap s.outDur i

/-- `OUT_DUR[i] <- v` (R25) -/
def writeOutDur (s : State) (i v : Nat) : Except Fault State :=
  match putAt .outDur s.cfg.scrCap s.outDur i v with
  | .ok m => .ok { s with outDur := m }
  | .error f => .error f

/-- `OUT_TS` (R25), whose reset value is `⊥` (R29); reading that is the fault of R13, as for an element
(93_implementation_defined.md section 1). -/
def readOutTs (s : State) : Except Fault Nat :=
  match s.outTs with
  | some v => .ok v
  | none => .error (.readUnwritten .outTs)

/-- The loop `for k in k0 .. k0+n-1: P[k] <- get k`, the elements read in order (R77, R88). -/
def collect (get : Nat → Except Fault Nat) : Nat → Nat → Except Fault (List Nat)
  | _, 0 => .ok []
  | k, n + 1 =>
    match get k with
    | .error f => .error f
    | .ok v =>
      match collect get (k + 1) n with
      | .error f => .error f
      | .ok vs => .ok (v :: vs)

/-! ### Ending a transaction -/

/-- `respond(sts, data)`: the command's one response (rules R13, R50). -/
def respond (s : State) (sts : Sts) (data : Word) : State :=
  { s with responses := s.responses ++ [⟨sts, data⟩] }

/-- An illegal word "reads no state and writes none. Its response is `respond(ILLEGAL, 0)`" (R52). -/
def respondIllegal (s : State) : State := respond s .illegal 0

/-- `zext_32(v)`, the response data for a value of at most 32 bits (R11). A value of 2^32 or more, to which
R11 gives no meaning, answers its low 32 bits (DESIGN CHOICE, log entry 18). -/
def dataOf (v : Nat) : Word := BitVec.ofNat 32 v

/-- The outcome of a transaction's pseudocode. -/
def finish : Except Fault State → Host.Outcome State Fault Refusal
  | .ok s => .next s
  | .error f => .fault f

/-! ### Reset -/

/-- RESET (rule R109): the block's own state to its reset values, `LAST_US` to a free draw of `CLK_W`
bits (R110). The configuration, the pending inputs and the responses given are not the block's state (DESIGN
CHOICE, log entry 10). -/
def resetBlock (s : State) : State :=
  { s with
    en := false
    cst := .idle
    lastUs := trunc s.cfg.clkW (Config.freeLastUs s.draws)
    swp := 0
    sfill := 0
    scr := []
    qhead := 0
    qtail := 0
    qused := 0
    qwp := 0
    ring := []
    offs := []
    outValid := false
    outLen := 0
    outTs := none
    outDur := [] }

/-! ### Inputs and arbitration -/

/-- Whether an input has a transaction pending. -/
def ready (s : State) : Source → Bool
  | .producer => !s.edges.isEmpty
  | .consumer => !s.cmds.isEmpty
  | .resetInput => decide (0 < s.resets)

/-- The arbiter's decision for the next transaction (rule R39): the platform's, where it has fixed one,
and otherwise a free value (DESIGN CHOICE, log entry 4). -/
def turn (s : State) : Source :=
  match s.turns with
  | a :: _ => a
  | [] => Config.freeTurn s.draws

/-- The input that goes next: the only one with a transaction pending, or, of several, the one whose
turn it is. "When an edge and a command are both pending, either may go first" (R39), and a RESET may
fall between any two transactions (R109). -/
def nextSource (s : State) : Option Source :=
  match [Source.producer, .consumer, .resetInput].filter (ready s) with
  | [] => none
  | [a] => some a
  | a :: b :: as => if turn s ∈ a :: b :: as then some (turn s) else some a

/-- The oldest pending transaction of an input, taken from its stream: one agent's inputs run in their
presentation order (R39), and none is lost (R117). -/
def takeFrom (s : State) : Source → Option (Transaction × State)
  | .producer =>
    match s.edges with
    | [] => none
    | e :: es => some (.edge e, { s with edges := es })
  | .consumer =>
    match s.cmds with
    | [] => none
    | w :: ws => some (.cmd w, { s with cmds := ws })
  | .resetInput =>
    match s.resets with
    | 0 => none
    | n + 1 => some (.reset, { s with resets := n })

/-- The next transaction in the block's "single total order" (R39), with the state it starts in. -/
def takeNext (s : State) : Option (Transaction × State) :=
  match nextSource s with
  | none => none
  | some a => takeFrom { s with turns := s.turns.tail, draws := s.draws + 1 } a

/-- Presents one transaction at its input, after those already pending there, and fixes that it runs
when its turn comes: a script's transactions run in the script's order (R55). -/
def present (s : State) (t : Transaction) : State :=
  match t with
  | .edge e => { s with edges := s.edges ++ [e], turns := s.turns ++ [.producer] }
  | .cmd w => { s with cmds := s.cmds ++ [w], turns := s.turns ++ [.consumer] }
  | .reset => { s with resets := s.resets + 1, turns := s.turns ++ [.resetInput] }

/-- Presents a whole list of transactions, in order. -/
def presentAll (s : State) (ts : List Transaction) : State := ts.foldl present s

end Sys2Proof.Machine
end

