-- ==== Sys2Proof/Machine/Operands.lean ====
section
/-! DEFINITION. The operand forms: the two clock samples of an EDGE and the duration they give
(30_encoding.md rule R47, 41_capture.md rules R68 and R79), the duration operand of CLASSIFY and the
index operand of GET_DUR (rule R49, 42_queue.md rule R92). -/

namespace Sys2Proof.Machine

/-- `t_us` as the block's `CLK_W`-bit input carries it (R47): a wider number loses its high bits at the
port (DESIGN CHOICE, log entry 13). -/
def edgeUs (c : Config) (e : EdgeEvent) : Nat := trunc c.clkW e.tUs

/-- `t_ms` as the block's `MS_W`-bit input carries it (R47), in the same way (log entry 13). -/
def edgeMs (c : Config) (e : EdgeEvent) : Nat := trunc c.msW e.tMs

/-- `d <- (t_us - LAST_US) mod 2^CLK_W` (R68). -/
def pulseDuration (c : Config) (tUs lastUs : Nat) : Nat := subMod tUs lastUs (2 ^ c.clkW)

/-- The packet timestamp, `trunc_SLOT_W(t_ms)` (R79). -/
def packetTimestamp (c : Config) (tMs : Nat) : Nat := trunc c.slotW tMs

/-- `DUR = zext_CLK_W(w[22:0])` (R49): zero-extension keeps the value (DEDUCED, log entry 7). -/
def classifyDuration (dur : Nat) : Nat := dur

/-- What GET_DUR's `IDX` names, in the order of rule R92's tests. -/
inductive IndexTarget where
  /-- `OUT_VALID = 0` -/
  | noPacket
  /-- `IDX >= OUT_LEN` -/
  | outOfRange
  /-- `IDX = OUT_LEN - 1`, read as the terminator constant (R93) -/
  | lastElement
  /-- any earlier index -/
  | element
  deriving DecidableEq, Repr

/-- The tests of rule R92 on the operand, in the order written. -/
def indexTarget (s : State) (idx : Nat) : IndexTarget :=
  if s.outValid = false then .noPacket
  else if idx ≥ s.outLen then .outOfRange
  else if idx = s.outLen - 1 then .lastElement
  else .element

end Sys2Proof.Machine
end

