-- ==== Sys2Proof/Machine/Classifier.lean ====
section
/-! DEFINITION. The pulse classifier and CLASSIFY (40_classifier.md): pure functions of a duration, a
tolerance mode and the configuration. -/

namespace Sys2Proof.Machine

/-- The answer of `classifyShortLong` (R59). -/
inductive PulseClass where
  | none
  | short
  | long
  deriving DecidableEq, Repr

/-- The class as CLASSIFY reports it: NONE = 0, SHORT = 1, LONG = 2 (R65). -/
def PulseClass.code : PulseClass → BitVec 2
  | .none => 0
  | .short => 1
  | .long => 2

/-- "A duration `d` is in the window iff `|d - ref| <= tol`, with both ends included" (R57). -/
def inWindow (ref tol d : Nat) : Bool := decide (absDiff d ref ≤ tol)

/-- `classifyShortLong(d, fz)` (R59): strict windows first, then, under fuzzy, SHORT before LONG. -/
def classifyShortLong (c : Config) (d : Nat) (fz : Tolerance) : PulseClass :=
  if d = 0 then .none
  else if inWindow c.shortUs c.tolStrict d then .short
  else if inWindow c.longUs c.tolStrict d then .long
  else if fz = .fuzzy ∧ inWindow c.shortUs c.tolFuzzySl d then .short
  else if fz = .fuzzy ∧ inWindow c.longUs c.tolFuzzySl d then .long
  else .none

/-- `isFixed(d, fz)` (R60): the half-open continuation range, then the FIXED windows. -/
def isFixed (c : Config) (d : Nat) (fz : Tolerance) : Bool :=
  if d = 0 then false
  else if c.termUs ≤ d ∧ d < c.fixedTermHi then true
  else if inWindow c.fixedUs c.tolStrict d then true
  else if fz = .fuzzy ∧ inWindow c.fixedUs c.tolFuzzyFx d then true
  else false

/-- `isTerminator(d)` (R61): `d >= TERM_US`, independent of mode. -/
def isTerminator (c : Config) (d : Nat) : Bool := decide (c.termUs ≤ d)

/-- `validStrict(d)` (R64), the validity scan's predicate. -/
def validStrict (c : Config) (d : Nat) : Bool :=
  classifyShortLong c d .strict != .none || isFixed c d .strict

/-- The mode of the IDLE start test, parameter `IDLE_FUZZY` (R70). -/
def idleMode (c : Config) : Tolerance := if c.idleFuzzy then .fuzzy else .strict

/-- "A duration is *invalid* in the sense of §2 iff `classifyShortLong(d, fz) = NONE` and
`isFixed(d, fz) = false`" (R63). No rule reports it. -/
def isInvalid (c : Config) (d : Nat) (fz : Tolerance) : Bool :=
  classifyShortLong c d fz == .none && !isFixed c d fz

/-- CLASSIFY's data, `zext_32({ tm, fx, c[1:0] })` (R65). -/
def classifyData (c : Config) (fz : Tolerance) (d : Nat) : Word :=
  (BitVec.ofBool (isTerminator c d) ++ BitVec.ofBool (isFixed c d fz) ++
    (classifyShortLong c d fz).code).setWidth 32

/-- CLASSIFY (R65): reads no state, writes none, always OK. -/
def execClassify (fz : Tolerance) (dur : Nat) (s : State) : Host.Outcome State Fault Refusal :=
  .next (respond s .ok (classifyData s.cfg fz (classifyDuration dur)))

end Sys2Proof.Machine
end

