-- ==== Sys2Proof/Machine/Flags.lean ====
section
/-! DEFINITION. The derived values and status views: `QCOUNT`, empty, full and the footprint (10_state.md
rule R24), the status flags (R27), the CTRL and STATUS words (R26), and the code of a response status
(30_encoding.md rule R50). The block has no arithmetic flags (R27). -/

namespace Sys2Proof.Machine

/-- `QCOUNT = (QHEAD - QTAIL) mod OFFS_CAP` (R24). -/
def qcount (s : State) : Nat := subMod s.qhead s.qtail s.cfg.offsCap

/-- "The queue is *empty* iff `QHEAD = QTAIL`" (R24). -/
def queueEmpty (s : State) : Bool := s.qhead == s.qtail

/-- NONEMPTY (R26, R27). -/
def nonEmpty (s : State) : Bool := !queueEmpty s

/-- "The offset ring is *full* iff `QCOUNT = OFFS_CAP - 1`" (R24). -/
def offsetRingFull (s : State) : Bool := qcount s == s.cfg.offsCap - 1

/-- `fp(L) = L + HDR_SLOTS` (R24). -/
def footprint (c : Config) (len : Nat) : Nat := len + c.hdrSlots

/-- The capture state as its stored bit (R18). -/
def CaptureState.bit : CaptureState → Bool
  | .idle => false
  | .accumulating => true

/-- `STS` as it is coded in a response (R50). -/
def Sts.code : Sts → BitVec 2
  | .ok => 0
  | .empty => 1
  | .illegal => 2
  | .range => 3

/-- The notional CTRL register (R26): bit 0 is `EN`. No command reads it. -/
def ctrlView (s : State) : Word := BitVec.ofBool s.en |>.setWidth 32

/-- The STATUS word (R26, R96): `{ trunc_16(QUSED), trunc_8(QCOUNT), 0b0000, OUT_VALID, ne, CST, EN }`. It
reads no slot of `RING`, although R21 names STATUS among the ring's readers (DEDUCED, log entry 21). -/
def statusWord (s : State) : Word :=
  BitVec.ofNat 16 s.qused ++ BitVec.ofNat 8 (qcount s) ++ 0#4 ++
    BitVec.ofBool s.outValid ++ BitVec.ofBool (nonEmpty s) ++ BitVec.ofBool s.cst.bit ++
    BitVec.ofBool s.en

end Sys2Proof.Machine
end

