-- ==== Sys2Proof/Machine/Queue.lean ====
section
/-! DEFINITION. The packet queue (42_queue.md): eviction and push on the producer side, POP on the
consumer side, and the read-out commands GET_LEN, GET_TS and GET_DUR. -/

namespace Sys2Proof.Machine

/-- `evict()` (R84): the oldest queued packet goes; its footprint is read from its length slot. The
subtraction stops at 0 where `QUSED` is the smaller, which R30 item 3 excludes (DEDUCED, log entry 14). -/
def evict (s : State) : Except Fault State :=
  match readOffs s s.qtail with
  | .error f => .error f
  | .ok start =>
    match readRing s start with
    | .error f => .error f
    | .ok len =>
      .ok { s with
        qused := s.qused - footprint s.cfg len
        qtail := (s.qtail + 1) % s.cfg.offsCap }

/-- The loop condition of push (R83): no space for a footprint `f`, or no free offset entry (R85). -/
def needsRoom (s : State) (f : Nat) : Bool :=
  decide (s.cfg.ringCap < s.qused + f) || offsetRingFull s

/-- The eviction loop of push (R83), for at most the given number of evictions. -/
def makeRoom (f : Nat) : Nat → State → Except Fault State
  | 0, s => if needsRoom s f then .error .evictionUnbounded else .ok s
  | fuel + 1, s =>
    if needsRoom s f then
      match evict s with
      | .error e => .error e
      | .ok s' => makeRoom f fuel s'
    else .ok s

/-- `for k in k0 ..: RING[(s + 2 + k) mod RC] <- P[k]` (R83). -/
def fillRing (start : Nat) : Nat → List Nat → State → Except Fault State
  | _, [], s => .ok s
  | k, v :: vs, s =>
    match writeRing s ((start + 2 + k) % s.cfg.ringCap) v with
    | .error f => .error f
    | .ok s' => fillRing start (k + 1) vs s'

/-- The append of push (R83), once there is room: the offset entry, the length, the timestamp, the
durations, then the accounting, and the head index last (R41). -/
def appendPacket (s : State) (ts : Nat) (p : List Nat) : Except Fault State :=
  match writeOffs s s.qhead s.qwp with
  | .error f => .error f
  | .ok s1 =>
    match writeRing s1 s.qwp p.length with
    | .error f => .error f
    | .ok s2 =>
      match writeRing s2 ((s.qwp + 1) % s.cfg.ringCap) ts with
      | .error f => .error f
      | .ok s3 =>
        match fillRing s.qwp 0 p s3 with
        | .error f => .error f
        | .ok s4 =>
          .ok { s4 with
            qwp := (s.qwp + footprint s.cfg p.length) % s.cfg.ringCap
            qused := s.qused + footprint s.cfg p.length
            qhead := (s.qhead + 1) % s.cfg.offsCap }

/-- `push(L, ts, P)` with `L` the length of `P` (R83). The loop takes at most `OFFS_CAP - 1` evictions
(R80). -/
def push (s : State) (ts : Nat) (p : List Nat) : Except Fault State :=
  match makeRoom (footprint s.cfg p.length) s.cfg.offsCap s with
  | .error f => .error f
  | .ok s' => appendPacket s' ts p

/-- `for k in k0 ..: OUT_DUR[k] <- v` over the durations given (R88). -/
def fillOut : Nat → List Nat → State → Except Fault State
  | _, [], s => .ok s
  | k, v :: vs, s =>
    match writeOutDur s k v with
    | .error f => .error f
    | .ok s' => fillOut (k + 1) vs s'

/-- The copy of POP on a non-empty queue (R88): length, timestamp, durations, then the tail and the
accounting, after the copy (R41), and the response. -/
def popPacket (s : State) : Except Fault State :=
  match readOffs s s.qtail with
  | .error f => .error f
  | .ok start =>
    match readRing s start with
    | .error f => .error f
    | .ok len =>
      match readRing s ((start + 1) % s.cfg.ringCap) with
      | .error f => .error f
      | .ok ts =>
        match collect (fun k => readRing s ((start + 2 + k) % s.cfg.ringCap)) 0 len with
        | .error f => .error f
        | .ok durs =>
          match fillOut 0 durs { s with outLen := len, outTs := some ts } with
          | .error f => .error f
          | .ok s' =>
            .ok (respond
              { s' with
                outValid := true
                qtail := (s.qtail + 1) % s.cfg.offsCap
                qused := s.qused - footprint s.cfg len }
              .ok (dataOf len))

/-- POP on an empty queue (R89): only `OUT_VALID` is written. -/
def popEmpty (s : State) : State := respond { s with outValid := false } .empty 0

/-- POP (R88, R89). -/
def execPop (s : State) : Host.Outcome State Fault Refusal :=
  if queueEmpty s then .next (popEmpty s) else finish (popPacket s)

/-- GET_LEN (R90). -/
def execGetLen (s : State) : Host.Outcome State Fault Refusal :=
  if s.outValid then .next (respond s .ok (dataOf s.outLen)) else .next (respond s .empty 0)

/-- GET_TS (R91). -/
def execGetTs (s : State) : Host.Outcome State Fault Refusal :=
  if s.outValid then
    match readOutTs s with
    | .ok ts => .next (respond s .ok (dataOf ts))
    | .error f => .fault f
  else .next (respond s .empty 0)

/-- GET_DUR (R92), the last element read as the terminator constant (R93). -/
def execGetDur (idx : Nat) (s : State) : Host.Outcome State Fault Refusal :=
  match indexTarget s idx with
  | .noPacket => .next (respond s .empty 0)
  | .outOfRange => .next (respond s .range 0)
  | .lastElement => .next (respond s .ok (dataOf s.cfg.termUs))
  | .element =>
    match readOutDur s idx with
    | .ok v => .next (respond s .ok (dataOf v))
    | .error f => .fault f

end Sys2Proof.Machine
end

