-- ==== Sys2Proof/Machine/Capture.lean ====
section
/-! DEFINITION. The capture side (41_capture.md): the scratch window, the validity scan, the boundary
detector and emission, the EDGE event, and the START and STOP commands. -/

namespace Sys2Proof.Machine

/-- The index of the scratch entry `i` places older than the newest: `(SWP - 1 - i) mod SCR_CAP` (R20). -/
def scratchIndex (s : State) (i : Nat) : Nat := subMod s.swp (1 + i) s.cfg.scrCap

/-- The scratch entry `i` places older than the newest (R20). -/
def scratchEntry (s : State) (i : Nat) : Except Fault Nat := readScr s (scratchIndex s i)

/-- `append(d)` (R71): ring semantics, the oldest entry overwritten once the window is full. -/
def append (s : State) (d : Nat) : Except Fault State :=
  match writeScr s s.swp d with
  | .error f => .error f
  | .ok s' =>
    .ok { s' with
      swp := (s.swp + 1) % s.cfg.scrCap
      sfill := min (s.sfill + 1) s.cfg.scrCap }

/-- The loop of `scan()` (R74) from entry `i`, with `errs` errors and `n` entries so far; the first
argument is how many entries of the session are left. -/
def scanFrom (s : State) : Nat → Nat → Nat → Nat → Except Fault Nat
  | 0, _, _, n => .ok n
  | left + 1, i, errs, n =>
    match scratchEntry s i with
    | .error f => .error f
    | .ok e =>
      if validStrict s.cfg e then scanFrom s left (i + 1) errs (n + 1)
      else if errs = s.cfg.errLimit then .ok n
      else scanFrom s left (i + 1) (errs + 1) (n + 1)

/-- `scan()` (R74): the terminator is the first error and the first entry scanned. -/
def scan (s : State) : Except Fault Nat := scanFrom s (s.sfill - 1) 1 1 1

/-- `norm(x)` (R78): clamps a final duration above `TERM_US + NORM_MARGIN`. -/
def norm (c : Config) (x : Nat) : Nat := if x > c.termUs + c.normMargin then c.termUs else x

/-- `P[n-1] <- norm(P[n-1])` (R77): only the last element is normalised. -/
def normLast (c : Config) : List Nat → List Nat
  | [] => []
  | [x] => [norm c x]
  | x :: y :: p => x :: normLast c (y :: p)

/-- The `n` newest scratch entries, oldest first: `P[k] <- SCR[(SWP - n + k) mod SCR_CAP]` (R77). -/
def newest (s : State) (n : Nat) : Except Fault (List Nat) :=
  collect (fun k => readScr s (subMod (s.swp + k) n s.cfg.scrCap)) 0 n

/-- `emit(n, t_ms)` (R77). -/
def emit (s : State) (n tMs : Nat) : Except Fault State :=
  match newest s n with
  | .error f => .error f
  | .ok p => push s (packetTimestamp s.cfg tMs) (normLast s.cfg p)

/-- `boundary(t_ms)` (R72): scan, return to IDLE, discard a short session (R76) or emit. -/
def boundary (s : State) (tMs : Nat) : Except Fault State :=
  match scan s with
  | .error f => .error f
  | .ok n =>
    if n < s.cfg.minPkt then .ok { s with cst := .idle }
    else emit { s with cst := .idle } n tMs

/-- EDGE with `EN = 1` and the duration `d` already computed and `LAST_US` updated (R67). -/
def edgeDuration (s : State) (d tMs : Nat) : Except Fault State :=
  match s.cst with
  | .idle =>
    if classifyShortLong s.cfg d (idleMode s.cfg) = .none then .ok s
    else append { s with cst := .accumulating, swp := 0, sfill := 0 } d
  | .accumulating =>
    match append s d with
    | .error f => .error f
    | .ok s' => if isTerminator s.cfg d then boundary s' tMs else .ok s'

/-- EDGE(t_us, t_ms) (R67): nothing while detached (R69), otherwise the duration since the last edge
processed. No response. -/
def edge (e : EdgeEvent) (s : State) : Except Fault State :=
  if s.en then
    edgeDuration { s with lastUs := edgeUs s.cfg e }
      (pulseDuration s.cfg (edgeUs s.cfg e) s.lastUs) (edgeMs s.cfg e)
  else .ok s

/-- The EDGE transaction. -/
def runEdge (e : EdgeEvent) (s : State) : Host.Outcome State Fault Refusal := finish (edge e s)

/-- START (R81): `EN <- 1`, nothing else. -/
def execStart (s : State) : Host.Outcome State Fault Refusal :=
  .next (respond { s with en := true } .ok 0)

/-- STOP (R82): `EN <- 0`, `CST <- IDLE`; the partial session is abandoned. -/
def execStop (s : State) : Host.Outcome State Fault Refusal :=
  .next (respond { s with en := false, cst := .idle } .ok 0)

end Sys2Proof.Machine
end

