-- ==== Sys2Proof/Machine/Polling.lean ====
section
/-! DEFINITION. NOP and STATUS (43_status.md). -/

namespace Sys2Proof.Machine

/-- NOP (R95): `respond(OK, 0)`. -/
def execNop (s : State) : Host.Outcome State Fault Refusal := .next (respond s .ok 0)

/-- STATUS (R96): the status word; writes nothing. -/
def execStatus (s : State) : Host.Outcome State Fault Refusal :=
  .next (respond s .ok (statusWord s))

end Sys2Proof.Machine
end

