-- ==== Sys2Proof/Machine/Dispatch.lean ====
section
/-! DEFINITION. What each command does: one arm per row of spec/opcode_table.json. -/

namespace Sys2Proof.Machine

def exec (i : Instr) (s : State) : Host.Outcome State Fault Refusal :=
  match i with
  | .nop => Sys2Proof.Machine.execNop s
  | .start => Sys2Proof.Machine.execStart s
  | .stop => Sys2Proof.Machine.execStop s
  | .pop => Sys2Proof.Machine.execPop s
  | .getTs => Sys2Proof.Machine.execGetTs s
  | .getLen => Sys2Proof.Machine.execGetLen s
  | .getDur idx => Sys2Proof.Machine.execGetDur idx s
  | .classify fz dur => Sys2Proof.Machine.execClassify fz dur s
  | .status => Sys2Proof.Machine.execStatus s

end Sys2Proof.Machine
end

