-- ==== Sys2Proof/Machine/Transact.lean ====
section
/-! DEFINITION. Running one transaction of each kind (30_encoding.md rules R46 and R53). -/

namespace Sys2Proof.Machine

/-- "A CMD transaction runs the rule of the decoded command, or responds `respond(ILLEGAL, 0)`" (R53). -/
def runCommand (w : Word) (s : State) : Host.Outcome State Fault Refusal :=
  match decode w with
  | .ok i => exec i s
  | .error _ => .next (respondIllegal s)

/-- The RESET transaction (R109): no response. -/
def runReset (s : State) : Host.Outcome State Fault Refusal := .next (resetBlock s)

/-- One atomic transaction (R14, R46). -/
def transact (t : Transaction) (s : State) : Host.Outcome State Fault Refusal :=
  match t with
  | .edge e => runEdge e s
  | .cmd w => runCommand w s
  | .reset => runReset s

/-- A command word put in front of the consumer's stream, with the turn the consumer's. -/
def presentFirst (w : Word) (s : State) : State :=
  { s with cmds := w :: s.cmds, turns := .consumer :: s.turns }

end Sys2Proof.Machine
end

