-- ==== Sys2Proof/Machine/Step.lean ====
section
/-! DEFINITION. One step of the machine: one atomic transaction of the block's total order
(20_memory.md rule R39), and the host's entry that places a command word. -/

namespace Sys2Proof.Machine

/-- Runs the next transaction. A block whose configuration violates R10 has no meaning; with nothing
pending at any input nothing happens (DESIGN CHOICE, log entry 6). -/
def step (s : State) : Host.Outcome State Fault Refusal :=
  if s.cfg.wf then
    match takeNext s with
    | none => .next s
    | some (t, s') => transact t s'
  else .refused .configNotAdmitted

/-- `s` with the command word `w` (its bits from `nbits` up 0) presented so that the very next step runs
it (DESIGN CHOICE, log entry 8). -/
def State.withFetchWord (s : State) (nbits w : Nat) : State :=
  presentFirst (BitVec.ofNat 32 (trunc nbits w)) s

end Sys2Proof.Machine
end

