-- ==== Sys2Proof/Machine/Script.lean ====
section
/-! DEFINITION. Transaction scripts (30_encoding.md rules R55 and R56): their text, one transaction a
line, and the expansion of the pseudo forms. A script is how the spec writes a program for the block; its
transactions are presented at the block's inputs by `presentAll`. -/

namespace Sys2Proof.Machine

/-- A space or a tab, which separates the parts of a line. -/
def isBlankChar (c : Char) : Bool := c == ' ' || c == '\t'

/-- A text without the blanks at its ends. -/
def trimText (cs : List Char) : List Char :=
  ((cs.dropWhile isBlankChar).reverse.dropWhile isBlankChar).reverse

/-- The parts of a text between commas. -/
def splitCommas : List Char → List (List Char)
  | [] => [[]]
  | c :: cs =>
    match splitCommas cs with
    | [] => [[c]]
    | p :: ps => if c = ',' then [] :: p :: ps else (c :: p) :: ps

/-- The value of a digit in the given base (10 or 16). -/
def digitValue (base : Nat) (c : Char) : Option Nat :=
  let v :=
    if 48 ≤ c.toNat ∧ c.toNat ≤ 57 then c.toNat - 48
    else if 65 ≤ c.toNat ∧ c.toNat ≤ 70 then c.toNat - 55
    else if 97 ≤ c.toNat ∧ c.toNat ≤ 102 then c.toNat - 87
    else base
  if v < base then some v else none

/-- The number a list of digits writes, after the value read so far. -/
def digitsValue (base : Nat) : Nat → List Char → Option Nat
  | acc, [] => some acc
  | acc, c :: cs =>
    match digitValue base c with
    | none => none
    | some v => digitsValue base (acc * base + v) cs

/-- "a decimal or `0x` number": R55 says so of `idx`; every other number of a line but `fz` and the raw word
is read in the same two forms (DESIGN CHOICE, log entry 17). -/
def parseNumber : List Char → Option Nat
  | [] => none
  | '0' :: 'x' :: c :: cs => digitsValue 16 0 (c :: cs)
  | c :: cs => digitsValue 10 0 (c :: cs)

/-- "a `0x` number of 8 hex digits" (R55). -/
def parseRawWord : List Char → Option Word
  | '0' :: 'x' :: ds =>
    if ds.length = 8 then (digitsValue 16 0 ds).map (BitVec.ofNat 32) else none
  | _ => none

/-- "`fz` either `0` or `1`" (R55). -/
def parseMode : List Char → Option Tolerance
  | ['0'] => some .strict
  | ['1'] => some .fuzzy
  | _ => none

/-- The line a mnemonic and its operands spell (R55, R56), every number but `fz` and the raw word decimal or
`0x` (DESIGN CHOICE, log entry 17). -/
def parseForm (mnemonic : List Char) (operands : List (List Char)) : Option ScriptLine :=
  match operands with
  | [] =>
    if mnemonic = ['N', 'O', 'P'] then some (.command .nop)
    else if mnemonic = ['S', 'T', 'A', 'R', 'T'] then some (.command .start)
    else if mnemonic = ['S', 'T', 'O', 'P'] then some (.command .stop)
    else if mnemonic = ['P', 'O', 'P'] then some (.command .pop)
    else if mnemonic = ['G', 'E', 'T', '_', 'T', 'S'] then some (.command .getTs)
    else if mnemonic = ['G', 'E', 'T', '_', 'L', 'E', 'N'] then some (.command .getLen)
    else if mnemonic = ['S', 'T', 'A', 'T', 'U', 'S'] then some (.command .status)
    else if mnemonic = ['R', 'E', 'S', 'E', 'T'] then some .reset
    else none
  | [a] =>
    if mnemonic = ['G', 'E', 'T', '_', 'D', 'U', 'R'] then
      (parseNumber a).map (fun n => .command (.getDur n))
    else if mnemonic = ['C', 'L', 'S', '.', 'S'] then (parseNumber a).map .clsStrict
    else if mnemonic = ['C', 'L', 'S', '.', 'F'] then (parseNumber a).map .clsFuzzy
    else if mnemonic = ['.', 'T', '0'] then (parseNumber a).map .timeBase
    else if mnemonic = ['P', 'U', 'L', 'S', 'E'] then (parseNumber a).map .pulse
    else if mnemonic = ['.', 'W', 'O', 'R', 'D'] then (parseRawWord a).map .rawWord
    else none
  | [a, b] =>
    if mnemonic = ['E', 'D', 'G', 'E'] then
      match parseNumber a, parseNumber b with
      | some us, some ms => some (.edge ⟨us, ms⟩)
      | _, _ => none
    else if mnemonic = ['C', 'L', 'A', 'S', 'S', 'I', 'F', 'Y'] then
      match parseMode a, parseNumber b with
      | some fz, some dur => some (.command (.classify fz dur))
      | _, _ => none
    else none
  | _ => none

/-- One line of text: its script lines (none for a blank or comment line), or `none` where the
transcriber refuses its spelling or a number out of range (R55; DESIGN CHOICE, log entry 17). "`;` begins a comment". -/
def parseLine (c : Config) (text : List Char) : Option (List ScriptLine) :=
  let body := trimText (text.takeWhile (· != ';'))
  if body = [] then some []
  else
    let mnemonic := body.takeWhile (fun ch => !isBlankChar ch)
    let rest := trimText (body.drop mnemonic.length)
    let operands := if rest = [] then [] else (splitCommas rest).map trimText
    match parseForm mnemonic operands with
    | none => none
    | some l => if l.isWf c then some [l] else none

/-- A whole text, line by line. -/
def parseScript (c : Config) : List (List Char) → Option (List ScriptLine)
  | [] => some []
  | t :: ts =>
    match parseLine c t, parseScript c ts with
    | some ls, some rest => some (ls ++ rest)
    | _, _ => none

/-- The transactions of a script (R55, R56), from the time base `T`; `none` before the first `.T0`, where
`PULSE` has no meaning (DESIGN CHOICE, log entry 9). `PULSE d` is `EDGE trunc_CLK_W(T + d), floor((T + d) / 1000)`, then
`T <- T + d`; a millisecond sample that does not fit `MS_W` is presented as it is and loses its high bits at
the port (DESIGN CHOICE, log entry 19), although R55 refuses such a number on an EDGE line. -/
def expandScript (c : Config) : Option Nat → List ScriptLine → Option (List Transaction)
  | _, [] => some []
  | t, .command i :: ls => (expandScript c t ls).map (.cmd (encode i) :: ·)
  | t, .edge e :: ls => (expandScript c t ls).map (.edge e :: ·)
  | t, .reset :: ls => (expandScript c t ls).map (.reset :: ·)
  | t, .rawWord w :: ls => (expandScript c t ls).map (.cmd w :: ·)
  | t, .clsStrict d :: ls => (expandScript c t ls).map (.cmd (encode (.classify .strict d)) :: ·)
  | t, .clsFuzzy d :: ls => (expandScript c t ls).map (.cmd (encode (.classify .fuzzy d)) :: ·)
  | _, .timeBase t :: ls => expandScript c (some t) ls
  | none, .pulse _ :: _ => none
  | some t, .pulse d :: ls =>
    (expandScript c (some (t + d)) ls).map (.edge ⟨trunc c.clkW (t + d), (t + d) / 1000⟩ :: ·)

/-- The transactions a script's text stands for, or `none` where the transcriber refuses it. -/
def transcribe (c : Config) (text : List (List Char)) : Option (List Transaction) :=
  match parseScript c text with
  | none => none
  | some ls => expandScript c none ls

end Sys2Proof.Machine
end

