-- ==== Sys2Proof/Safety.lean ====
section
/-! DEFINITION. The terms statements are made in: the window, the queue and the output buffer as the
lists they hold (10_state.md rules R20, R21, R22, R25), what push, the scan and EDGE do to those lists, the
invariant of rule R30, and the launch premises of rule R112. -/

namespace Sys2Proof.Machine

/-! ### What the arrays hold -/

/-- A candidate packet: its millisecond timestamp and its durations, oldest first. -/
structure Packet where
  ts : Nat
  durs : List Nat
  deriving DecidableEq, Repr

/-- The footprint of a packet, `fp(L) = L + HDR_SLOTS` (R24). -/
def Packet.slots (c : Config) (p : Packet) : Nat := footprint c p.durs.length

/-- The sum of the footprints of a list of packets (R23, R87). -/
def totalSlots (c : Config) : List Packet → Nat
  | [] => 0
  | p :: ps => p.slots c + totalSlots c ps

/-- The ring holds packet `p` from slot `start` on (R21): its length, its timestamp, its durations. -/
def ringHolds (s : State) (start : Nat) (p : Packet) : Prop :=
  s.ring.read start = some p.durs.length ∧
  s.ring.read ((start + 1) % s.cfg.ringCap) = some p.ts ∧
  ∀ k, k < p.durs.length → s.ring.read ((start + 2 + k) % s.cfg.ringCap) = p.durs[k]?

/-- The packets lie one behind the other, the first at offset entry `i` and slot `start` (R30 item 4). -/
def laidOut (s : State) : List Packet → Nat → Nat → Prop
  | [], _, _ => True
  | p :: ps, i, start =>
    s.offs.read i = some start ∧ ringHolds s start p ∧
      laidOut s ps ((i + 1) % s.cfg.offsCap) ((start + p.slots s.cfg) % s.cfg.ringCap)

/-- The queue holds exactly the packets `ps`, oldest first, with the accounting of R30 items 3 and 4. -/
def queueHolds (s : State) (ps : List Packet) : Prop :=
  ∃ start, start < s.cfg.ringCap ∧ laidOut s ps s.qtail start ∧
    ps.length = qcount s ∧ s.qused = totalSlots s.cfg ps ∧ s.qused ≤ s.cfg.ringCap ∧
    (start + s.qused) % s.cfg.ringCap = s.qwp

/-- The scratch window holds exactly the durations `ds` of the session, newest first (R20). -/
def windowHolds (s : State) (ds : List Nat) : Prop :=
  ds.length = s.sfill ∧ ∀ i, i < s.sfill → s.scr.read (scratchIndex s i) = ds[i]?

/-- The output buffer holds packet `p` (R25). -/
def outputHolds (s : State) (p : Packet) : Prop :=
  s.outLen = p.durs.length ∧ s.outTs = some p.ts ∧
    ∀ k, k < p.durs.length → s.outDur.read k = p.durs[k]?

/-! ### What the rules do to the lists -/

/-- The packets left of a queue once push has made room for a footprint `f`: the oldest go, one at a
time, until there is space and a free offset entry (R83, R85, R86). -/
def survivors (c : Config) (f : Nat) : List Packet → List Packet
  | [] => []
  | p :: ps =>
    if c.ringCap < totalSlots c (p :: ps) + f ∨ (p :: ps).length = c.offsCap - 1 then
      survivors c f ps
    else p :: ps

/-- How many entries older than the terminator the scan takes from a window (newest first), with `errs`
errors so far (R74). -/
def scanCount (c : Config) : Nat → List Nat → Nat
  | _, [] => 0
  | errs, d :: ds =>
    if validStrict c d then 1 + scanCount c errs ds
    else if errs = c.errLimit then 0
    else 1 + scanCount c (errs + 1) ds

/-- The packet a window (newest first, the terminator at its head) is emitted as: the scanned entries,
oldest first, the last normalised (R74, R77, R78, R79). -/
def emittedPacket (c : Config) (d : Nat) (older : List Nat) (tMs : Nat) : Packet where
  ts := packetTimestamp c tMs
  durs := (norm c d :: older.take (scanCount c 1 older)).reverse

/-- The window after `append(d)` (R71): the newest first, at most `SCR_CAP` of them. -/
def appended (c : Config) (d : Nat) (ds : List Nat) : List Nat := (d :: ds).take c.scrCap

/-- The packet, if any, that the accumulating block emits when the duration `d` arrives over the window
`ds` at millisecond `tMs` (R72, R76, R77). -/
def emission (c : Config) (d : Nat) (ds : List Nat) (tMs : Nat) : Option Packet :=
  if isTerminator c d ∧ c.minPkt ≤ (emittedPacket c d (appended c d ds).tail tMs).durs.length then
    some (emittedPacket c d (appended c d ds).tail tMs)
  else none

/-- The ring of `t` is that of `s` with packet `p` written from the write position of `s` on; every slot
but its `L + 2` is as before (R83). -/
def ringWritten (s t : State) (p : Packet) : Prop :=
  ringHolds t s.qwp p ∧
  ∀ x, (∀ j, j < p.durs.length + 2 → x ≠ (s.qwp + j) % s.cfg.ringCap) → t.ring.read x = s.ring.read x

/-- The rings and indices of `t` are those of `s` after `k` evictions and the append of `p` (R83, R84). -/
def pushedFrom (s t : State) (k : Nat) (p : Packet) : Prop :=
  ringWritten s t p ∧
  t.offs = s.offs.write s.qhead s.qwp ∧
  t.qhead = (s.qhead + 1) % s.cfg.offsCap ∧
  t.qwp = (s.qwp + p.slots s.cfg) % s.cfg.ringCap ∧
  t.qtail = (s.qtail + k) % s.cfg.offsCap

/-- The rings and indices of `t` against those of `s`, whose queue holds `ps`, after an EDGE that emits the
given packet, if any: pushed after the evictions its footprint needs (R83), or as they were (R76). -/
def ringsAfter (s t : State) (ps : List Packet) : Option Packet → Prop
  | none =>
    t.ring = s.ring ∧ t.offs = s.offs ∧ t.qhead = s.qhead ∧ t.qtail = s.qtail ∧
      t.qused = s.qused ∧ t.qwp = s.qwp
  | some p => ∃ k, survivors s.cfg (p.slots s.cfg) ps = ps.drop k ∧ pushedFrom s t k p

/-- The queue after an EDGE that emits `e`. -/
def queueAfter (c : Config) (e : Option Packet) (ps : List Packet) : List Packet :=
  match e with
  | none => ps
  | some p => survivors c (p.slots c) ps ++ [p]

/-! ### The invariant of rule R30 -/

/-- Every register and element is within the width or range rule R29 gives it. -/
abbrev inRange (s : State) : Prop :=
  s.lastUs < 2 ^ s.cfg.clkW ∧ s.swp < s.cfg.scrCap ∧ s.sfill ≤ s.cfg.scrCap ∧
  s.qhead < s.cfg.offsCap ∧ s.qtail < s.cfg.offsCap ∧ s.qused ≤ s.cfg.ringCap ∧
  s.qwp < s.cfg.ringCap ∧ s.outLen ≤ s.cfg.scrCap ∧ (∀ v ∈ s.outTs, v < 2 ^ s.cfg.slotW) ∧
  s.scr.fits s.cfg.scrCap s.cfg.clkW ∧ s.ring.fits s.cfg.ringCap s.cfg.slotW ∧
  (∀ c ∈ s.offs, c.1 < s.cfg.offsCap ∧ c.2 < s.cfg.ringCap) ∧
  s.outDur.fits s.cfg.scrCap s.cfg.slotW

/-- The memories are in canonical form. -/
abbrev canonical (s : State) : Prop := s.scr.wf ∧ s.ring.wf ∧ s.offs.wf ∧ s.outDur.wf

/-- R30 item 5: length in `[MIN_PKT, SCR_CAP]`, every duration but the last below `TERM_US`, the last
in `[TERM_US, TERM_US + NORM_MARGIN]`. -/
abbrev packetOk (c : Config) (p : Packet) : Prop :=
  c.minPkt ≤ p.durs.length ∧ p.durs.length ≤ c.scrCap ∧
  (∀ k, k + 1 < p.durs.length → ∀ d ∈ p.durs[k]?, d < c.termUs) ∧
  (∀ d ∈ p.durs.getLast?, c.termUs ≤ d ∧ d ≤ c.termUs + c.normMargin)

/-- R30 item 1. -/
abbrev scratchOk (s : State) : Prop :=
  (s.sfill < s.cfg.scrCap → s.swp = s.sfill) ∧
  ∀ i, i < s.sfill → (s.scr.read (scratchIndex s i)).isSome

/-- R30 item 2. -/
abbrev sessionOk (s : State) : Prop :=
  s.cst = .accumulating →
    s.en = true ∧ 1 ≤ s.sfill ∧
      ∀ i, i < s.sfill → ∀ d ∈ s.scr.read (scratchIndex s i), d < s.cfg.termUs

/-- R30 items 3, 4 and, for the queued packets, 5. -/
abbrev queueOk (s : State) : Prop :=
  qcount s ≤ s.cfg.offsCap - 1 ∧ (qcount s = 0 ↔ s.qused = 0) ∧
  ∃ ps, queueHolds s ps ∧ ∀ p ∈ ps, packetOk s.cfg p

/-- R30 item 6 and, for the output buffer, 5. -/
abbrev outputOk (s : State) : Prop :=
  s.outValid = true → ∃ p, outputHolds s p ∧ packetOk s.cfg p

/-- Rule R30, with the ranges of R29, for a configuration that is admitted and coherent (DEDUCED, log
entry 3). -/
structure Inv (s : State) : Prop where
  coherent : s.cfg.coherent
  inRange : inRange s
  canonical : canonical s
  scratch : scratchOk s
  session : sessionOk s
  queue : queueOk s
  output : outputOk s

/-! ### Launch premises (rule R112) and orders of inputs (rule R39) -/

/-- `reset_state`: the block's state is that of rule R109 with `LAST_US = v`; the configuration, the
pending inputs and the responses given are any. -/
def resetState (v : Nat) (s : State) : Prop :=
  v < 2 ^ s.cfg.clkW ∧ s = { resetBlock s with lastUs := v }

/-- `quiet_start`: `reset_state`, START pending first, then an EDGE whose duration is not SHORT or LONG
under `IDLE_FUZZY`. The EDGE is the very next transaction after START; R112 does not say whether a command
may stand between the two (DESIGN CHOICE, log entry 20). -/
def quietStart (v : Nat) (s : State) : Prop :=
  resetState v s ∧ ∃ e es ws ts,
    s.edges = e :: es ∧ s.cmds = encode .start :: ws ∧
    s.turns = .consumer :: .producer :: ts ∧
    classifyShortLong s.cfg (pulseDuration s.cfg (edgeUs s.cfg e) v) (idleMode s.cfg) = .none

/-- `no_illegal`: the host issues no illegal word. -/
def noIllegal (s : State) : Prop := ∀ w ∈ s.cmds, ∃ i, decode w = .ok i

/-- Nothing is pending at any input. -/
def noneReady (s : State) : Prop := s.edges = [] ∧ s.cmds = [] ∧ s.resets = 0

/-! ### Words with an operand field that must be zero -/

/-- Every word of opcode `op` with a non-zero operand field is answered `(ILLEGAL, 0)`, and nothing else
changes (R52, for a format N opcode). -/
def refusesOperand (op : BitVec 8) : Prop :=
  ∀ (low : BitVec 24) (s : State), low ≠ 0 →
    transact (.cmd (op ++ low)) s = .next { s with responses := s.responses ++ [⟨.illegal, 0⟩] }

end Sys2Proof.Machine
end

