-- ==== Sys2Proof/Certificates/Slice0/Obligations.lean ====
section
/-! DEFINITION. The statements about the model, from the numbered rules of spec/. -/

open Sys2Proof Sys2Proof.Machine

/-! ### Encoding (30_encoding.md) -/

/-- R48, R49, R51, R53: decoding the word of any well-formed command gives the command back. -/
def Obligations.DecodeEncodeRoundTrip : Prop :=
  ∀ i : Instr, i.wf → decode (encode i) = .ok i

/-- R52, R53: a word that decodes is the one word of its command, whose operands are in range. -/
def Obligations.DecodedWordsEncodeBack : Prop :=
  ∀ (w : Word) (i : Instr), decode w = .ok i → i.wf ∧ encode i = w

/-- R52: exactly its three kinds of word are illegal; such a word is answered `(ILLEGAL, 0)` and changes
nothing else; no CLASSIFY word is illegal; every other word is one of the nine commands. -/
def Obligations.IllegalWordsAnswerIllegal : Prop :=
  ∀ (op : BitVec 8) (low : BitVec 24),
    ((∃ r, decode (op ++ low) = .error r) ↔
      9 ≤ op.toNat ∨ (op.toNat ∈ [0, 1, 2, 3, 4, 5, 8] ∧ low ≠ 0) ∨
        (op.toNat = 6 ∧ low.extractLsb' 16 8 ≠ 0)) ∧
    ((∃ r, decode (op ++ low) = .error r) → ∀ s : State,
      transact (.cmd (op ++ low)) s =
        .next { s with responses := s.responses ++ [⟨.illegal, 0⟩] }) ∧
    (op.toNat = 7 → ∃ i, decode (op ++ low) = .ok i) ∧
    ((¬ ∃ r, decode (op ++ low) = .error r) → ∃ i, decode (op ++ low) = .ok i ∧ i.wf)

/-- Words written out from the formats of R48 and the map of R51 decode to the commands they stand for. -/
def Obligations.WrittenOutWordsDecode : Prop :=
  decode 0b00000000000000000000000000000000#32 = .ok .nop ∧
  decode 0b00000001000000000000000000000000#32 = .ok .start ∧
  decode 0b00000010000000000000000000000000#32 = .ok .stop ∧
  decode 0b00000011000000000000000000000000#32 = .ok .pop ∧
  decode 0b00000100000000000000000000000000#32 = .ok .getTs ∧
  decode 0b00000101000000000000000000000000#32 = .ok .getLen ∧
  decode 0b00000110000000000000000001000000#32 = .ok (.getDur 64) ∧
  decode 0b00000111100000000000001111001111#32 = .ok (.classify .fuzzy 975) ∧
  decode 0b00000111000000000001010101111100#32 = .ok (.classify .strict 5500) ∧
  decode 0b00001000000000000000000000000000#32 = .ok .status ∧
  decode 0b00001001000000000000000000000000#32 = .error .unassignedOpcode ∧
  decode 0b00000011000000000000000000000001#32 = .error .operandNotZero ∧
  decode 0b00000110000000010000000000000000#32 = .error .indexHighBitsNotZero

/-! ### Steps (20_memory.md section 3, 00_scope.md rule R10) -/

/-- R39, R53: when the consumer's input goes next and its oldest word decodes, the step is `exec` of the
command, on the state with the word, one turn and one draw taken (the model's own port fields, log entries 4
and 8); an illegal word is answered. -/
def Obligations.StepRunsTheDecodedCommand : Prop :=
  ∀ (s : State) (w : Word) (ws : List Word), s.cfg.wf → nextSource s = some .consumer →
    s.cmds = w :: ws →
    (∀ i, decode w = .ok i →
      step s = exec i { s with cmds := ws, turns := s.turns.tail, draws := s.draws + 1 }) ∧
    (∀ r, decode w = .error r →
      step s = .next { s with
        cmds := ws, turns := s.turns.tail, draws := s.draws + 1
        responses := s.responses ++ [⟨.illegal, 0⟩] })

/-- R39, R46: when the producer's input goes next the step is the EDGE of its oldest event; when the
reset input goes next it is RESET (turns and draws are the model's own port fields, log entry 4). -/
def Obligations.StepRunsTheOldestEdgeOrReset : Prop :=
  ∀ s : State, s.cfg.wf →
    (∀ e es, nextSource s = some .producer → s.edges = e :: es →
      step s =
        transact (.edge e) { s with edges := es, turns := s.turns.tail, draws := s.draws + 1 }) ∧
    (∀ n, nextSource s = some .resetInput → s.resets = n + 1 →
      step s =
        transact .reset { s with resets := n, turns := s.turns.tail, draws := s.draws + 1 })

/-- The model's choice (log entry 6): with nothing pending at any input a step changes nothing. -/
def Obligations.StepWithNothingPendingChangesNothing : Prop :=
  ∀ s : State, s.cfg.wf → noneReady s → step s = .next s

/-- R39: an input that is the only one ready goes next; of several that are ready, any may go next, as
the turn says, whether the platform fixed it or it is free (log entry 4). -/
def Obligations.AnyReadyInputMayGoNext : Prop :=
  ∀ (s : State) (a : Source), ready s a = true →
    ((∀ b, ready s b = true → b = a) → nextSource s = some a) ∧
    (∀ ts, nextSource { s with turns := a :: ts } = some a) ∧
    (s.turns = [] → Config.freeTurn s.draws = a → nextSource s = some a)

/-- R39, R117: a step takes the oldest pending transaction of exactly one input and leaves the other
inputs as they are. No input is lost or reordered. Two parts are the model's choice: that with nothing pending
a step changes nothing (log entry 6), and that what is pending survives a RESET (log entry 10). -/
def Obligations.StepsTakeInputsInOrder : Prop :=
  ∀ s t : State, step s = .next t →
    (noneReady s ∧ t = s) ∨
    ((∃ e, s.edges = e :: t.edges) ∧ t.cmds = s.cmds ∧ t.resets = s.resets) ∨
    ((∃ w, s.cmds = w :: t.cmds) ∧ t.edges = s.edges ∧ t.resets = s.resets) ∨
    (s.resets = t.resets + 1 ∧ t.edges = s.edges ∧ t.cmds = s.cmds)

/-- R10: a step has a meaning exactly in a configuration that meets the seven items. -/
def Obligations.OnlyAdmittedConfigurationsHaveAMeaning : Prop :=
  ∀ s : State,
    ((s.cfg.ringCap ≥ s.cfg.scrCap + s.cfg.hdrSlots ∧
      (s.cfg.ringCap ≤ 65535 ∧ 2 ≤ s.cfg.offsCap ∧ s.cfg.offsCap ≤ 256) ∧
      (16 ≤ s.cfg.slotW ∧ s.cfg.slotW ≤ 32) ∧
      2 ^ s.cfg.clkW > s.cfg.termUs + s.cfg.normMargin ∧
      (s.cfg.minPkt ≥ 2 ∧ s.cfg.scrCap ≥ s.cfg.minPkt ∧ s.cfg.errLimit ≥ 1) ∧
      (s.cfg.termUs < s.cfg.fixedTermHi ∧ s.cfg.fixedUs + s.cfg.tolStrict < s.cfg.termUs ∧
        s.cfg.longUs + s.cfg.tolStrict < s.cfg.termUs ∧
        s.cfg.shortUs + s.cfg.tolFuzzySl < s.cfg.termUs ∧
        s.cfg.longUs + s.cfg.tolFuzzySl < s.cfg.termUs) ∧
      s.cfg.tolStrict < s.cfg.shortUs) →
        ∀ r, step s ≠ .refused r) ∧
    (¬ (s.cfg.ringCap ≥ s.cfg.scrCap + s.cfg.hdrSlots ∧
      (s.cfg.ringCap ≤ 65535 ∧ 2 ≤ s.cfg.offsCap ∧ s.cfg.offsCap ≤ 256) ∧
      (16 ≤ s.cfg.slotW ∧ s.cfg.slotW ≤ 32) ∧
      2 ^ s.cfg.clkW > s.cfg.termUs + s.cfg.normMargin ∧
      (s.cfg.minPkt ≥ 2 ∧ s.cfg.scrCap ≥ s.cfg.minPkt ∧ s.cfg.errLimit ≥ 1) ∧
      (s.cfg.termUs < s.cfg.fixedTermHi ∧ s.cfg.fixedUs + s.cfg.tolStrict < s.cfg.termUs ∧
        s.cfg.longUs + s.cfg.tolStrict < s.cfg.termUs ∧
        s.cfg.shortUs + s.cfg.tolFuzzySl < s.cfg.termUs ∧
        s.cfg.longUs + s.cfg.tolFuzzySl < s.cfg.termUs) ∧
      s.cfg.tolStrict < s.cfg.shortUs) →
        step s = .refused .configNotAdmitted)

/-- R29, R44: no step changes the configuration. -/
def Obligations.StepKeepsTheConfiguration : Prop :=
  ∀ s t : State, step s = .next t → t.cfg = s.cfg

/-- R46, R50: a command produces exactly one response, with data 0 under every status but OK; an EDGE
and a RESET produce none. -/
def Obligations.EachCommandGivesOneResponse : Prop :=
  ∀ s t : State,
    (∀ w, transact (.cmd w) s = .next t →
      ∃ r : Response, t.responses = s.responses ++ [r] ∧ (r.sts ≠ .ok → r.data = 0)) ∧
    (∀ e, transact (.edge e) s = .next t → t.responses = s.responses) ∧
    (transact .reset s = .next t → t.responses = s.responses)

/-- R35, R99: a command answers ILLEGAL or RANGE with no other change, and EMPTY with none but
`OUT_VALID` cleared by POP. -/
def Obligations.ErrorStatusesArePrecise : Prop :=
  ∀ (s t : State) (w : Word) (r : Response), transact (.cmd w) s = .next t →
    t.responses = s.responses ++ [r] →
    (r.sts = .illegal ∨ r.sts = .range → t = { s with responses := s.responses ++ [r] }) ∧
    (r.sts = .empty →
      (decode w = .ok .pop ∧ t = { s with outValid := false, responses := s.responses ++ [r] }) ∨
      (decode w ≠ .ok .pop ∧ t = { s with responses := s.responses ++ [r] }))

/-- R100: ILLEGAL comes before EMPTY, and EMPTY before RANGE. -/
def Obligations.IllegalThenEmptyThenRange : Prop :=
  (∀ (low : BitVec 24) (s : State), low.extractLsb' 16 8 ≠ 0 →
    transact (.cmd (0x06#8 ++ low)) s =
      .next { s with responses := s.responses ++ [⟨.illegal, 0⟩] }) ∧
  (∀ (idx : BitVec 16) (s : State), s.outValid = false →
    transact (.cmd (0x0600#16 ++ idx)) s =
      .next { s with responses := s.responses ++ [⟨.empty, 0⟩] }) ∧
  (∀ (idx : BitVec 16) (s : State), s.outValid = true → s.outLen ≤ idx.toNat →
    transact (.cmd (0x0600#16 ++ idx)) s =
      .next { s with responses := s.responses ++ [⟨.range, 0⟩] })

/-- R55: the transactions of a script, presented to a block with nothing pending (log entry 8), run in the
script's order; each takes one draw (the model's choice, log entry 4). -/
def Obligations.PresentedTransactionsRunInOrder : Prop :=
  ∀ (s : State) (tr : Transaction) (trs : List Transaction), noneReady s → s.turns = [] →
    takeNext (presentAll s (tr :: trs)) =
      some (tr, presentAll { s with draws := s.draws + 1 } trs)

/-- R56: what the pseudo forms and the directive of a script stand for. -/
def Obligations.PseudoFormsExpand : Prop :=
  ∀ (c : Config) (t : Option Nat) (base d : Nat) (ls : List ScriptLine),
    expandScript c t (.clsStrict d :: ls) =
      expandScript c t (.command (.classify .strict d) :: ls) ∧
    expandScript c t (.clsFuzzy d :: ls) =
      expandScript c t (.command (.classify .fuzzy d) :: ls) ∧
    expandScript c t (.timeBase base :: ls) = expandScript c (some base) ls ∧
    expandScript c (some base) (.pulse d :: ls) =
      (expandScript c (some (base + d)) ls).map
        (.edge ⟨(base + d) % 2 ^ c.clkW, (base + d) / 1000⟩ :: ·)

/-! ### The classifier (40_classifier.md) -/

/-- R59, with the closed windows of R57: never for 0; strict windows first; under fuzzy, then the fuzzy
windows, SHORT before LONG. -/
def Obligations.ShortLongByWindows : Prop :=
  ∀ (c : Config) (d : Nat) (fz : Tolerance),
    let within := fun (ref tol : Nat) => (ref : Int) - tol ≤ d ∧ (d : Int) ≤ ref + tol
    let strictShort := within c.shortUs c.tolStrict
    let strictLong := within c.longUs c.tolStrict
    (classifyShortLong c d fz = .short ↔
      d ≠ 0 ∧ (strictShort ∨ (¬ strictLong ∧ fz = .fuzzy ∧ within c.shortUs c.tolFuzzySl))) ∧
    (classifyShortLong c d fz = .long ↔
      d ≠ 0 ∧ ¬ strictShort ∧
        (strictLong ∨
          (fz = .fuzzy ∧ ¬ within c.shortUs c.tolFuzzySl ∧ within c.longUs c.tolFuzzySl)))

/-- R60: the half-open continuation range, or the FIXED window of the mode, and never 0; at the default
`TERM_US` and `FIXED_TERM_HI`, 5999 is fixed and 6000 is not, in both modes. -/
def Obligations.FixedByWindows : Prop :=
  (∀ (c : Config) (d : Nat) (fz : Tolerance),
    isFixed c d fz = true ↔
      d ≠ 0 ∧
        ((c.termUs ≤ d ∧ d < c.fixedTermHi) ∨
          ((c.fixedUs : Int) - c.tolStrict ≤ d ∧ (d : Int) ≤ c.fixedUs + c.tolStrict) ∨
          (fz = .fuzzy ∧
            (c.fixedUs : Int) - c.tolFuzzyFx ≤ d ∧ (d : Int) ≤ c.fixedUs + c.tolFuzzyFx))) ∧
  (∀ fz, isFixed Config.reference 5999 fz = true ∧ isFixed Config.reference 6000 fz = false)

/-- R58 and R64 at the default parameters, whatever the OPEN fuzzy FIXED tolerance: the windows of each
class, and the durations that are valid in the scan. -/
def Obligations.DefaultWindows : Prop :=
  ∀ tol d : Nat,
    let c := { Config.reference with tolFuzzyFx := tol }
    (classifyShortLong c d .strict = .short ↔ 340 ≤ d ∧ d ≤ 760) ∧
    (classifyShortLong c d .strict = .long ↔ 1190 ≤ d ∧ d ≤ 1610) ∧
    (isFixed c d .strict = true ↔ (765 ≤ d ∧ d ≤ 1185) ∨ (5000 ≤ d ∧ d < 6000)) ∧
    (classifyShortLong c d .fuzzy = .short ↔ 50 ≤ d ∧ d ≤ 1050) ∧
    (classifyShortLong c d .fuzzy = .long ↔ 1051 ≤ d ∧ d ≤ 1900) ∧
    (isTerminator c d = true ↔ 5000 ≤ d) ∧
    (validStrict c d = true ↔
      (340 ≤ d ∧ d ≤ 760) ∨ (765 ≤ d ∧ d ≤ 1185) ∨ (1190 ≤ d ∧ d ≤ 1610) ∨
        (5000 ≤ d ∧ d < 6000))

/-- R62: duration 0 is unclassifiable in every mode of every admitted configuration. -/
def Obligations.ZeroIsUnclassifiable : Prop :=
  ∀ (c : Config) (fz : Tolerance), c.wf →
    classifyShortLong c 0 fz = .none ∧ isFixed c 0 fz = false ∧ isTerminator c 0 = false

/-- R65: CLASSIFY's word, its answer `(OK, { tm, fx, c })` and nothing else changed, in every state; no
operand is illegal and class 3 never occurs; the corner cases at the default thresholds; the example. That
an operand of `2^CLK_W` or more keeps its 23 bits is the model's reading (DEDUCED, log entry 7). -/
def Obligations.ClassifyAnswersThreeBits : Prop :=
  (∀ (fz : Tolerance) (dur : Nat), dur < 2 ^ 23 →
    (encode (.classify fz dur)).toNat =
      0x07000000 + (if fz = .fuzzy then 0x00800000 else 0) + dur) ∧
  (∀ (fz : Tolerance) (dur : Nat) (s : State),
    exec (.classify fz dur) s =
      .next { s with responses := s.responses ++ [⟨.ok, BitVec.ofNat 32
        ((if s.cfg.termUs ≤ dur then 8 else 0) + (if isFixed s.cfg dur fz then 4 else 0) +
          (match classifyShortLong s.cfg dur fz with | .none => 0 | .short => 1 | .long => 2))⟩] }) ∧
  (∀ low : BitVec 24, ∃ i, decode (0x07#8 ++ low) = .ok i) ∧
  (∀ (c : Config) (fz : Tolerance) (dur : Nat), (classifyData c fz dur).extractLsb' 0 2 ≠ 3#2) ∧
  (∀ dur, 900 ≤ dur → dur ≤ 1050 → classifyShortLong Config.reference dur .fuzzy = .short) ∧
  (∀ fz : Tolerance,
    classifyData Config.reference fz 0 = 0 ∧
    (∀ dur, 5000 ≤ dur → dur ≤ 5999 → classifyData Config.reference fz dur = 0xC) ∧
    (∀ dur, 6000 ≤ dur → classifyData Config.reference fz dur = 0x8)) ∧
  classifyData Config.reference .fuzzy 975 = 0x5

/-! ### Capture (41_capture.md) -/

/-- R69: while `EN = 0` an EDGE has no effect at all. -/
def Obligations.DetachedEdgesChangeNothing : Prop :=
  ∀ (s : State) (e : EdgeEvent), s.en = false → transact (.edge e) s = .next s

/-- R68: the duration is the modular difference; an interval is measured modulo `2^CLK_W`, across a wrap
of the clock too. -/
def Obligations.PulseDurationIsModular : Prop :=
  ∀ (c : Config) (now last x : Nat), now < 2 ^ c.clkW → last < 2 ^ c.clkW →
    pulseDuration c now last = (if last ≤ now then now - last else now + 2 ^ c.clkW - last) ∧
    pulseDuration c ((last + x) % 2 ^ c.clkW) last = x % 2 ^ c.clkW

/-- R70: an EDGE in IDLE whose duration is not SHORT or LONG changes `LAST_US` alone; one that is SHORT or LONG
starts a session with itself as the only entry, in element 0, and clears no other element. R70, R72: a
terminator is not SHORT or LONG, so it is such an ignored one, where the configuration is coherent (DEDUCED,
log entry 3). -/
def Obligations.IdleEdgesIgnoreOrStartASession : Prop :=
  ∀ (s : State) (e : EdgeEvent), s.cfg.wf → e.wf s.cfg → s.en = true → s.cst = .idle →
    let d := subMod e.tUs s.lastUs (2 ^ s.cfg.clkW)
    let mode := if s.cfg.idleFuzzy then Tolerance.fuzzy else .strict
    (classifyShortLong s.cfg d mode = .none →
      transact (.edge e) s = .next { s with lastUs := e.tUs }) ∧
    (classifyShortLong s.cfg d mode ≠ .none →
      ∃ t, transact (.edge e) s = .next t ∧
        t = { s with lastUs := e.tUs, cst := .accumulating, scr := t.scr, swp := 1, sfill := 1 } ∧
        t.scr.read 0 = some d ∧ ∀ i, i ≠ 0 → t.scr.read i = s.scr.read i) ∧
    (s.cfg.coherent → s.cfg.termUs ≤ d →
      classifyShortLong s.cfg d mode = .none ∧
        transact (.edge e) s = .next { s with lastUs := e.tUs })

/-- R71: in ACCUMULATING every EDGE appends its duration, valid or not, at the write pointer, and the
window's fill saturates; one that is no terminator changes nothing else. -/
def Obligations.AccumulatingEdgesAppend : Prop :=
  ∀ (s : State) (e : EdgeEvent), e.wf s.cfg → s.en = true → s.cst = .accumulating →
    s.swp < s.cfg.scrCap →
    let d := subMod e.tUs s.lastUs (2 ^ s.cfg.clkW)
    (∀ t, transact (.edge e) s = .next t →
      t.lastUs = e.tUs ∧ t.swp = (s.swp + 1) % s.cfg.scrCap ∧
      t.sfill = min (s.sfill + 1) s.cfg.scrCap ∧
      t.scr.read s.swp = some d ∧ ∀ i, i ≠ s.swp → t.scr.read i = s.scr.read i) ∧
    (d < s.cfg.termUs → ∃ t, transact (.edge e) s = .next t ∧
      t = { s with lastUs := e.tUs, scr := t.scr, swp := t.swp, sfill := t.sfill })

/-- R74, R75: the scan takes the terminator and, of the older entries, the most that hold fewer than
`ERR_LIMIT` invalid ones; the entry it stops at is invalid and comes when the budget is spent. -/
def Obligations.ScanKeepsTheErrorBudget : Prop :=
  ∀ (s : State) (d : Nat) (older : List Nat), s.cfg.wf → windowHolds s (d :: older) →
    ∃ m, scan s = .ok (1 + m) ∧ m ≤ older.length ∧
      (older.take m).countP (fun x => !validStrict s.cfg x) ≤ s.cfg.errLimit - 1 ∧
      (m < older.length →
        (older.take m).countP (fun x => !validStrict s.cfg x) = s.cfg.errLimit - 1 ∧
        ∃ x, older[m]? = some x ∧ validStrict s.cfg x = false)

/-- R76: a terminator whose scan counts fewer than `MIN_PKT` entries discards the session: the block
returns to IDLE, and the queue and the output buffer are unchanged. -/
def Obligations.ShortSessionsAreDiscarded : Prop :=
  ∀ (s : State) (e : EdgeEvent) (ds : List Nat), s.cfg.wf → e.wf s.cfg → s.en = true →
    s.cst = .accumulating → windowHolds s ds → s.swp < s.cfg.scrCap → s.sfill ≤ s.cfg.scrCap →
    let d := subMod e.tUs s.lastUs (2 ^ s.cfg.clkW)
    s.cfg.termUs ≤ d →
    1 + scanCount s.cfg 1 (appended s.cfg d ds).tail < s.cfg.minPkt →
    ∃ t, transact (.edge e) s = .next t ∧
      t = { s with lastUs := e.tUs, cst := .idle, scr := t.scr, swp := t.swp, sfill := t.sfill }

/-- R78: a final duration above `TERM_US + NORM_MARGIN` is stored as `TERM_US`, any other as it is, so a
terminator's lies in `[TERM_US, TERM_US + NORM_MARGIN]`; no other element is normalised. -/
def Obligations.OnlyTheLastDurationIsNormalised : Prop :=
  ∀ (c : Config) (xs : List Nat) (x : Nat),
    normLast c (xs ++ [x]) = xs ++ [norm c x] ∧
    (c.termUs + c.normMargin < x → norm c x = c.termUs) ∧
    (x ≤ c.termUs + c.normMargin → norm c x = x) ∧
    (c.termUs ≤ x → c.termUs ≤ norm c x ∧ norm c x ≤ c.termUs + c.normMargin)

/-- R71 to R79 and R83 to R86: in ACCUMULATING, from a state with the invariant whose window holds `ds`
(newest first) and whose queue holds `ps` (oldest first), every EDGE completes. The window then holds the
duration and `ds`, at most `SCR_CAP` of them. A terminator returns the block to IDLE; if the scanned
entries make a packet, the queue holds the survivors of the eviction and then that packet, and the rings and
indices are those of its push; otherwise they are as before. Nothing else changes. -/
def Obligations.EdgesRefineTheCaptureRules : Prop :=
  ∀ (s : State) (e : EdgeEvent) (ds : List Nat) (ps : List Packet), Inv s → e.wf s.cfg → s.en = true →
    s.cst = .accumulating → windowHolds s ds → queueHolds s ps →
    let d := subMod e.tUs s.lastUs (2 ^ s.cfg.clkW)
    ∃ t, transact (.edge e) s = .next t ∧
      windowHolds t (appended s.cfg d ds) ∧
      queueHolds t (queueAfter s.cfg (emission s.cfg d ds e.tMs) ps) ∧
      ringsAfter s t ps (emission s.cfg d ds e.tMs) ∧
      t = { s with
        lastUs := e.tUs
        cst := if s.cfg.termUs ≤ d then .idle else .accumulating
        scr := s.scr.write s.swp d
        swp := (s.swp + 1) % s.cfg.scrCap
        sfill := min (s.sfill + 1) s.cfg.scrCap
        ring := t.ring, offs := t.offs, qhead := t.qhead, qtail := t.qtail
        qused := t.qused, qwp := t.qwp }

/-- R81: START's word; it sets `EN`, answers `(OK, 0)` and changes nothing else; any operand bit makes the
word illegal. -/
def Obligations.StartAttaches : Prop :=
  encode .start = 0x01000000#32 ∧
  (∀ s : State, exec .start s =
    .next { s with en := true, responses := s.responses ++ [⟨.ok, 0⟩] }) ∧
  refusesOperand 0x01

/-- R82: STOP's word; it clears `EN`, abandons the session, answers `(OK, 0)` and changes nothing else;
any operand bit makes the word illegal. -/
def Obligations.StopAbandonsTheSession : Prop :=
  encode .stop = 0x02000000#32 ∧
  (∀ s : State, exec .stop s =
    .next { s with en := false, cst := .idle, responses := s.responses ++ [⟨.ok, 0⟩] }) ∧
  refusesOperand 0x02

/-- R66: the transitions of the capture state, one clause a row of its table; every command but STOP
leaves the capture state as it is. (A sample is taken as the port carries it, log entry 13.) -/
def Obligations.CaptureStateTransitions : Prop :=
  ∀ s t : State,
    (∀ e : EdgeEvent, transact (.edge e) s = .next t →
      let d := pulseDuration s.cfg (edgeUs s.cfg e) s.lastUs
      (s.en = false → t.cst = s.cst) ∧
      (s.en = true → s.cst = .idle →
        (classifyShortLong s.cfg d (idleMode s.cfg) = .none → t.cst = .idle) ∧
        (classifyShortLong s.cfg d (idleMode s.cfg) ≠ .none → t.cst = .accumulating)) ∧
      (s.en = true → s.cst = .accumulating →
        (isTerminator s.cfg d = false → t.cst = .accumulating) ∧
        (isTerminator s.cfg d = true → t.cst = .idle))) ∧
    (∀ w : Word, transact (.cmd w) s = .next t →
      (decode w = .ok .stop → t.cst = .idle ∧ t.en = false) ∧
      (decode w ≠ .ok .stop → t.cst = s.cst)) ∧
    (transact .reset s = .next t → t.cst = .idle)

/-! ### The packet queue (42_queue.md) -/

/-- R88: POP's word; POP on a queue that holds `p :: ps` completes. It leaves `ps` queued and `p` in the
output buffer, answers `(OK, L)`, moves the tail by one and the accounting by the footprint, and changes
nothing else; the elements of the buffer past the packet keep their values; any operand bit makes the word
illegal. -/
def Obligations.PopReturnsTheOldestPacket : Prop :=
  encode .pop = 0x03000000#32 ∧
  (∀ (s : State) (p : Packet) (ps : List Packet), s.cfg.wf → queueHolds s (p :: ps) →
    s.qhead < s.cfg.offsCap → s.qtail < s.cfg.offsCap → p.durs.length ≤ s.cfg.scrCap →
    ∃ t, exec .pop s = .next t ∧ queueHolds t ps ∧ outputHolds t p ∧
      t = { s with
        outValid := true
        outLen := p.durs.length
        outTs := some p.ts
        outDur := t.outDur
        qtail := (s.qtail + 1) % s.cfg.offsCap
        qused := s.qused - (p.durs.length + s.cfg.hdrSlots)
        responses := s.responses ++ [⟨.ok, BitVec.ofNat 32 p.durs.length⟩] } ∧
      ∀ k, p.durs.length ≤ k → t.outDur.read k = s.outDur.read k) ∧
  refusesOperand 0x03

/-- R89: POP on an empty queue clears `OUT_VALID`, answers `(EMPTY, 0)` and changes nothing else, however
often it is repeated. -/
def Obligations.PopOnAnEmptyQueue : Prop :=
  ∀ s : State, s.qhead = s.qtail →
    exec .pop s =
      .next { s with outValid := false, responses := s.responses ++ [⟨.empty, 0⟩] } ∧
    exec .pop { s with outValid := false, responses := s.responses ++ [⟨.empty, 0⟩] } =
      .next { s with
        outValid := false
        responses := s.responses ++ [⟨.empty, 0⟩] ++ [⟨.empty, 0⟩] }

/-- R90: GET_LEN's word; `(OK, OUT_LEN)` or `(EMPTY, 0)`, and nothing else changes; any operand bit makes
the word illegal. (A length of 2^32 or more: `WideValuesAnswerTheirLowBits`.) -/
def Obligations.GetLenReadsTheLength : Prop :=
  encode .getLen = 0x05000000#32 ∧
  (∀ s : State,
    (s.outValid = false →
      exec .getLen s = .next { s with responses := s.responses ++ [⟨.empty, 0⟩] }) ∧
    (s.outValid = true → s.outLen < 2 ^ 32 →
      exec .getLen s =
        .next { s with responses := s.responses ++ [⟨.ok, BitVec.ofNat 32 s.outLen⟩] }) ∧
    (outputOk s → s.outValid = true → s.cfg.minPkt ≤ s.outLen ∧ s.outLen ≤ s.cfg.scrCap)) ∧
  refusesOperand 0x05

/-- R91: GET_TS's word; `(OK, OUT_TS)` or `(EMPTY, 0)`, and nothing else changes; any operand bit makes
the word illegal. (A timestamp of 2^32 or more: `WideValuesAnswerTheirLowBits`.) -/
def Obligations.GetTsReadsTheTimestamp : Prop :=
  encode .getTs = 0x04000000#32 ∧
  (∀ s : State,
    (s.outValid = false →
      exec .getTs s = .next { s with responses := s.responses ++ [⟨.empty, 0⟩] }) ∧
    (∀ ts, s.outValid = true → s.outTs = some ts → ts < 2 ^ 32 →
      exec .getTs s = .next { s with responses := s.responses ++ [⟨.ok, BitVec.ofNat 32 ts⟩] })) ∧
  refusesOperand 0x04

/-- R92, R93: GET_DUR's word; EMPTY, then RANGE, then the terminator constant for the last index
whatever is stored there, then the stored duration; nothing else changes; any of `w[23:16]` makes the
word illegal. (A value of 2^32 or more: `WideValuesAnswerTheirLowBits`.) -/
def Obligations.GetDurReadsByIndex : Prop :=
  (∀ idx : BitVec 16, encode (.getDur idx.toNat) = 0x0600#16 ++ idx) ∧
  (∀ (s : State) (idx : Nat),
    (s.outValid = false →
      exec (.getDur idx) s = .next { s with responses := s.responses ++ [⟨.empty, 0⟩] }) ∧
    (s.outValid = true → s.outLen ≤ idx →
      exec (.getDur idx) s = .next { s with responses := s.responses ++ [⟨.range, 0⟩] }) ∧
    (s.outValid = true → idx + 1 = s.outLen → s.cfg.termUs < 2 ^ 32 →
      exec (.getDur idx) s =
        .next { s with responses := s.responses ++ [⟨.ok, BitVec.ofNat 32 s.cfg.termUs⟩] }) ∧
    (∀ v, s.outValid = true → idx + 1 < s.outLen → idx < s.cfg.scrCap →
      s.outDur.read idx = some v → v < 2 ^ 32 →
      exec (.getDur idx) s =
        .next { s with responses := s.responses ++ [⟨.ok, BitVec.ofNat 32 v⟩] })) ∧
  (∀ (low : BitVec 24) (s : State), low.extractLsb' 16 8 ≠ 0 →
    transact (.cmd (0x06#8 ++ low)) s =
      .next { s with responses := s.responses ++ [⟨.illegal, 0⟩] })

/-- R13 and 93_implementation_defined.md: reading `⊥` from the output buffer is a fault (`⊥` is `none`, log
entry 5); no state with the invariant of R30 meets these hypotheses. -/
def Obligations.ReadingUnwrittenOutputFaults : Prop :=
  (∀ s : State, s.outValid = true → s.outTs = none →
    exec .getTs s = .fault (.readUnwritten .outTs)) ∧
  (∀ (s : State) (idx : Nat), s.outValid = true → idx + 1 < s.outLen → idx < s.cfg.scrCap →
    s.outDur.read idx = none → exec (.getDur idx) s = .fault (.readUnwritten .outDur)) ∧
  (∀ s : State, Inv s → s.outValid = true → s.outTs ≠ none ∧
    ∀ idx, idx < s.outLen → idx < s.cfg.scrCap ∧ s.outDur.read idx ≠ none)

/-- R83, R85, R86: push completes. It evicts a number of oldest packets that leaves room in both rings, and
no fewer does; the queue then holds the others and, behind them, the new packet. The rings and indices are
those of that push, every other slot and offset entry as before, and nothing else changes. (A footprint covers
its two header slots: log entry 3.) -/
def Obligations.EvictionIsTheLeastThatFits : Prop :=
  ∀ (s : State) (ps : List Packet) (p : Packet), queueHolds s ps → 2 ≤ s.cfg.hdrSlots →
    2 ≤ s.cfg.offsCap → s.qhead < s.cfg.offsCap → s.qtail < s.cfg.offsCap →
    p.slots s.cfg ≤ s.cfg.ringCap →
    let fits := fun k => totalSlots s.cfg (ps.drop k) + p.slots s.cfg ≤ s.cfg.ringCap ∧
      (ps.drop k).length < s.cfg.offsCap - 1
    ∃ t k, push s p.ts p.durs = .ok t ∧ queueHolds t (ps.drop k ++ [p]) ∧
      (k ≤ ps.length ∧ fits k ∧ ∀ j, j < k → ¬ fits j) ∧
      (t.offs = s.offs.write s.qhead s.qwp ∧
        t.qhead = (s.qhead + 1) % s.cfg.offsCap ∧
        t.qwp = (s.qwp + p.slots s.cfg) % s.cfg.ringCap ∧
        t.qtail = (s.qtail + k) % s.cfg.offsCap ∧
        t.qused ≤ s.cfg.ringCap) ∧
      ringHolds t s.qwp p ∧
      (∀ x, (∀ j, j < p.durs.length + 2 → x ≠ (s.qwp + j) % s.cfg.ringCap) →
        t.ring.read x = s.ring.read x) ∧
      t = { s with
        ring := t.ring, offs := t.offs, qhead := t.qhead, qtail := t.qtail
        qused := t.qused, qwp := t.qwp }

/-- R21, R24: the packets a queue holds are determined by the state. -/
def Obligations.QueueContentsAreUnique : Prop :=
  ∀ (s : State) (ps qs : List Packet), queueHolds s ps → queueHolds s qs → ps = qs

/-- R40, R86, R94: what any step does to the queue: nothing; or a POP takes the oldest packet, which the
output buffer then holds; or an EDGE evicts from the oldest end and adds one packet behind; or RESET
empties it. The transaction named is the one that the step took from its input. No queued packet is changed,
reordered or duplicated. -/
def Obligations.StepsRefineAFifoQueue : Prop :=
  ∀ (s t : State) (ps : List Packet), Inv s → queueHolds s ps → step s = .next t →
    ∃ qs, queueHolds t qs ∧
      (qs = ps ∨
        (∃ p w ws, ps = p :: qs ∧ s.cmds = w :: ws ∧ t.cmds = ws ∧ decode w = .ok .pop ∧
          outputHolds t p) ∨
        (∃ p e es, qs = survivors s.cfg (p.slots s.cfg) ps ++ [p] ∧ s.edges = e :: es ∧
          t.edges = es ∧ packetOk s.cfg p) ∨
        (qs = [] ∧ s.resets = t.resets + 1))

/-- R114: between two transactions that are neither POP nor RESET a non-empty queue stays non-empty, so
the next POP does not answer EMPTY. -/
def Obligations.NonEmptyQueueStaysNonEmpty : Prop :=
  ∀ (s t : State) (tr : Transaction), Inv s → s.qhead ≠ s.qtail → transact tr s = .next t →
    tr ≠ .reset → (∀ w, tr = .cmd w → decode w ≠ .ok .pop) →
    t.qhead ≠ t.qtail ∧
      ∃ u n, exec .pop t = .next u ∧ u.responses = t.responses ++ [⟨.ok, n⟩]

/-! ### NOP and STATUS (43_status.md) -/

/-- R95: NOP's word; it answers `(OK, 0)` and changes nothing else; any operand bit makes the word
illegal. -/
def Obligations.NopOnlyResponds : Prop :=
  encode .nop = 0x00000000#32 ∧
  (∀ s : State, exec .nop s = .next { s with responses := s.responses ++ [⟨.ok, 0⟩] }) ∧
  refusesOperand 0x00

/-- R96, R26: STATUS's word; it answers OK with the status word, field by field, and changes nothing
else; in an admitted configuration no field drops a bit; any operand bit makes the word illegal. That it reads
no slot of `RING`, and so answers in every state, is log entry 21's reading of R21 (DEDUCED). -/
def Obligations.StatusReportsItsFields : Prop :=
  encode .status = 0x08000000#32 ∧
  (∀ s : State,
    exec .status s = .next { s with responses := s.responses ++ [⟨.ok, BitVec.ofNat 32
      (s.qused % 2 ^ 16 * 2 ^ 16 + subMod s.qhead s.qtail s.cfg.offsCap % 2 ^ 8 * 2 ^ 8 +
        (if s.outValid then 8 else 0) + (if s.qhead ≠ s.qtail then 4 else 0) +
        (if s.cst = .accumulating then 2 else 0) + (if s.en then 1 else 0))⟩] }) ∧
  (∀ s : State, s.cfg.wf → s.qused ≤ s.cfg.ringCap →
    s.qused % 2 ^ 16 = s.qused ∧
      subMod s.qhead s.qtail s.cfg.offsCap % 2 ^ 8 = subMod s.qhead s.qtail s.cfg.offsCap) ∧
  refusesOperand 0x08

/-! ### Whole-machine rules -/

/-- R35: NOP, GET_LEN, GET_TS, GET_DUR, STATUS and CLASSIFY have no side effect, and issued again at once
they give the same response. -/
def Obligations.ReadCommandsAreIdempotent : Prop :=
  ∀ (i : Instr) (s t : State),
    (match i with
      | .nop | .getLen | .getTs | .getDur _ | .status | .classify _ _ => True
      | .start | .stop | .pop => False) →
    exec i s = .next t →
    ∃ r, t = { s with responses := s.responses ++ [r] } ∧
      exec i t = .next { t with responses := t.responses ++ [r] }

/-- R19 to R23: no command writes `LAST_US`, the scratch window, the packet ring, the offset ring, the
head or the write position, or anything pending at an input; START and STOP alone write `EN`; STOP alone
writes `CST`; POP alone writes the tail and the accounting. -/
def Obligations.CommandsLeaveTheProducersStateAlone : Prop :=
  ∀ (i : Instr) (s t : State), exec i s = .next t →
    (t.lastUs = s.lastUs ∧ t.scr = s.scr ∧ t.swp = s.swp ∧ t.sfill = s.sfill) ∧
    (t.ring = s.ring ∧ t.offs = s.offs ∧ t.qhead = s.qhead ∧ t.qwp = s.qwp) ∧
    (t.cfg = s.cfg ∧ t.edges = s.edges ∧ t.cmds = s.cmds ∧ t.resets = s.resets ∧
      t.turns = s.turns ∧ t.draws = s.draws) ∧
    (i ≠ .start → i ≠ .stop → t.en = s.en) ∧ (i ≠ .stop → t.cst = s.cst) ∧
    (i ≠ .pop → t.qtail = s.qtail ∧ t.qused = s.qused)

/-- R113: POP and RESET alone write the output buffer. -/
def Obligations.PopAndResetAloneWriteTheOutputBuffer : Prop :=
  ∀ (tr : Transaction) (s t : State), transact tr s = .next t → tr ≠ .reset →
    (∀ w, tr = .cmd w → decode w ≠ .ok .pop) →
    t.outValid = s.outValid ∧ t.outLen = s.outLen ∧ t.outTs = s.outTs ∧ t.outDur = s.outDur

/-- R17, R111: a block becomes attached only by a START, which the step took from the consumer's input. -/
def Obligations.OnlyStartAttaches : Prop :=
  ∀ s t : State, step s = .next t → s.en = false → t.en = true →
    ∃ w ws, s.cmds = w :: ws ∧ t.cmds = ws ∧ decode w = .ok .start

/-- R109, R29: RESET completes and gives every element its reset value: capture detached and idle, the
window, the queue and the output buffer empty, every array element `⊥`, `LAST_US` some value of `CLK_W`
bits. It gives no response and leaves the configuration as it is. -/
def Obligations.ResetGivesTheInitialState : Prop :=
  ∀ s : State, ∃ t, transact .reset s = .next t ∧
    (t.en = false ∧ t.cst = .idle ∧ t.lastUs < 2 ^ s.cfg.clkW) ∧
    (t.swp = 0 ∧ t.sfill = 0 ∧ ∀ i, t.scr.read i = none) ∧
    (t.qhead = 0 ∧ t.qtail = 0 ∧ t.qused = 0 ∧ t.qwp = 0) ∧
    (∀ i, t.ring.read i = none ∧ t.offs.read i = none) ∧
    (t.outValid = false ∧ t.outLen = 0 ∧ t.outTs = none ∧ ∀ i, t.outDur.read i = none) ∧
    t.responses = s.responses ∧ t.cfg = s.cfg

/-- R112: from `quiet_start` the first two steps attach the block and set `LAST_US` to the first edge's
sample; the block stays in IDLE with the rest of its reset state. The model's choices in it: the edge is the
very next transaction after START (log entry 20), a wide sample is truncated at the port (log entry 13), and
each step takes one turn and one draw (log entry 4). -/
def Obligations.QuietStartSetsTheClockOnly : Prop :=
  ∀ (s : State) (v : Nat), s.cfg.wf → quietStart v s →
    ∃ t u e, step s = .next t ∧ step t = .next u ∧ s.edges.head? = some e ∧
      u = { s with
        en := true
        lastUs := e.tUs % 2 ^ s.cfg.clkW
        edges := s.edges.tail, cmds := s.cmds.tail, turns := s.turns.tail.tail
        draws := s.draws + 2
        responses := s.responses ++ [⟨.ok, 0⟩] }

/-- R30: the machine right after reset has the invariant, and so has every state a RESET gives in a
coherent configuration. -/
def Obligations.ResetHasTheInvariant : Prop :=
  Inv State.reset ∧
    ∀ s t : State, s.cfg.coherent → transact .reset s = .next t → Inv t

/-- R30: every step from a state with the invariant gives a state with the invariant. (`Inv` includes the
model's premise that the configuration is coherent, log entry 3, as it does wherever it stands below or
above; that `LAST_US` keeps its width after a wide sample is log entry 13.) -/
def Obligations.StepKeepsTheInvariant : Prop :=
  ∀ s t : State, Inv s → step s = .next t → Inv t

/-- R99, R120: from a state with the invariant no step stops: it reads no `⊥`, leaves no array, evicts a
bounded number of packets and has a meaning. -/
def Obligations.NoStepStops : Prop :=
  ∀ s : State, Inv s → ∃ t, step s = .next t

/-! ### The model's choices beyond the spec's widths -/

/-- The model's choice (log entry 13), to which R47 gives no meaning: samples wider than their inputs are
those of `CLK_W` and `MS_W` bits that the port carries. -/
def Obligations.WideSamplesAreTruncatedAtThePort : Prop :=
  ∀ (s : State) (e : EdgeEvent),
    EdgeEvent.wf s.cfg ⟨e.tUs % 2 ^ s.cfg.clkW, e.tMs % 2 ^ s.cfg.msW⟩ ∧
    transact (.edge e) s =
      transact (.edge ⟨e.tUs % 2 ^ s.cfg.clkW, e.tMs % 2 ^ s.cfg.msW⟩) s

/-- The model's choice (log entry 18), to which R11 gives no meaning: a value of 2^32 or more is answered by
its low 32 bits. -/
def Obligations.WideValuesAnswerTheirLowBits : Prop :=
  ∀ (s : State) (v : Nat), s.outValid = true → 2 ^ 32 ≤ v →
    let answersLowBits := fun i : Instr => ∃ w : Word, w.toNat = v % 2 ^ 32 ∧
      exec i s = .next { s with responses := s.responses ++ [⟨.ok, w⟩] }
    (s.outLen = v → answersLowBits .getLen) ∧
    (s.outTs = some v → answersLowBits .getTs) ∧
    (∀ idx, idx + 1 = s.outLen → s.cfg.termUs = v → answersLowBits (.getDur idx)) ∧
    (∀ idx, idx + 1 < s.outLen → idx < s.cfg.scrCap → s.outDur.read idx = some v →
      answersLowBits (.getDur idx))
end

