-- ==== Sys2Proof/Laws/Arith.lean ====
section
/-! SUPPORT. The laws of the notation's arithmetic (00_scope.md rules R11 and R12): truncation, the
modular difference, and stepping an index round a ring. -/

namespace Sys2Proof

theorem trunc_lt (n v : Nat) : trunc n v < 2 ^ n := Nat.mod_lt _ (Nat.two_pow_pos n)

theorem trunc_eq_self {n v : Nat} (h : v < 2 ^ n) : trunc n v = v := Nat.mod_eq_of_lt h

theorem subMod_eq_mod {a b n : Nat} (h : b ≤ a + n) : subMod a b n = (a + n - b) % n := by
  have hz : ((a : Int) - b) % n = (((a + n - b : Nat) : Int)) % n := by
    rw [Int.ofNat_sub h]
    push_cast
    rw [show ((a : Int) + n - b) = (a - b) + n by ring, Int.add_emod_right]
  unfold subMod
  rw [hz, ← Int.natCast_mod, Int.toNat_natCast]

theorem subMod_lt {n : Nat} (a b : Nat) (h : 0 < n) : subMod a b n < n := by
  have h0 : (0 : Int) ≤ ((a : Int) - b) % n := Int.emod_nonneg _ (by omega)
  have h1 : ((a : Int) - b) % n < n := Int.emod_lt_of_pos _ (by omega)
  unfold subMod
  omega

theorem subMod_of_le {a b n : Nat} (h : b ≤ a) (ha : a - b < n) : subMod a b n = a - b := by
  rw [subMod_eq_mod (by omega), show a + n - b = (a - b) + n by omega, Nat.add_mod_right,
    Nat.mod_eq_of_lt ha]

theorem subMod_of_lt {a b n : Nat} (h : a < b) (hb : b ≤ a + n) : subMod a b n = a + n - b := by
  rw [subMod_eq_mod hb, Nat.mod_eq_of_lt (by omega)]

theorem subMod_self (a n : Nat) : subMod a a n = 0 := by simp [subMod]

theorem subMod_add_self {a b n : Nat} (ha : a < n) (hb : b < n) : (b + subMod a b n) % n = a := by
  by_cases h : b ≤ a
  · rw [subMod_of_le h (by omega), show b + (a - b) = a by omega, Nat.mod_eq_of_lt ha]
  · rw [subMod_of_lt (by omega) (by omega), show b + (a + n - b) = a + n by omega,
      Nat.add_mod_right, Nat.mod_eq_of_lt ha]

theorem subMod_eq_zero_iff {a b n : Nat} (ha : a < n) (hb : b < n) : subMod a b n = 0 ↔ a = b := by
  constructor
  · intro h
    have := subMod_add_self ha hb
    rw [h, Nat.add_zero, Nat.mod_eq_of_lt hb] at this
    exact this.symm
  · rintro rfl
    exact subMod_self _ _

/-- One more step of the head is one more element, unless that makes the ring full. -/
theorem subMod_succ_left {a b n : Nat} (ha : a < n) (hb : b < n) (h : subMod a b n + 1 < n) :
    subMod ((a + 1) % n) b n = subMod a b n + 1 := by
  by_cases hba : b ≤ a
  · rw [subMod_of_le (a := a) (b := b) hba (by omega)] at h ⊢
    by_cases hn : a + 1 < n
    · rw [Nat.mod_eq_of_lt hn, subMod_of_le (by omega) (by omega)]
      omega
    · have : a + 1 = n := by omega
      rw [this, Nat.mod_self, subMod_of_lt (by omega) (by omega)]
      omega
  · rw [subMod_of_lt (a := a) (b := b) (by omega) (by omega)] at h ⊢
    rw [Nat.mod_eq_of_lt (show a + 1 < n by omega), subMod_of_lt (by omega) (by omega)]
    omega

/-- One step of the tail is one element fewer. -/
theorem subMod_succ_right {a b n : Nat} (ha : a < n) (hb : b < n) (h : a ≠ b) :
    subMod a ((b + 1) % n) n = subMod a b n - 1 := by
  by_cases hba : b ≤ a
  · rw [subMod_of_le hba (by omega), Nat.mod_eq_of_lt (show b + 1 < n by omega),
      subMod_of_le (by omega) (by omega)]
    omega
  · rw [subMod_of_lt (a := a) (b := b) (by omega) (by omega)]
    by_cases hn : b + 1 < n
    · rw [Nat.mod_eq_of_lt hn, subMod_of_lt (by omega) (by omega)]
      omega
    · have : b + 1 = n := by omega
      rw [this, Nat.mod_self, subMod_of_le (by omega) (by omega)]
      omega

/-- Two slots of a ring, each less than a full turn from the same start, are equal only if their
distances are. -/
theorem ring_slot_inj {s i j n : Nat} (hi : i < n) (hj : j < n) (h : (s + i) % n = (s + j) % n) :
    i = j := by
  have h' : i ≡ j [MOD n] := Nat.ModEq.add_left_cancel' s h
  exact Nat.ModEq.eq_of_lt_of_lt h' hi hj

theorem ring_step_assoc (s i j n : Nat) : ((s + i) % n + j) % n = (s + i + j) % n := by
  rw [Nat.mod_add_mod]

theorem absDiff_le_iff {d ref tol : Nat} : absDiff d ref ≤ tol ↔ ref ≤ d + tol ∧ d ≤ ref + tol := by
  unfold absDiff
  split <;> omega

end Sys2Proof
end

