-- ==== Sys2Proof/Laws/Classifier.lean ====
section
/-! SUPPORT. What the classifier answers, said once: membership in a window as two inequalities, and the
bound on a duration that starts a session. -/

namespace Sys2Proof.Machine

theorem inWindow_iff {ref tol d : Nat} :
    inWindow ref tol d = true ↔ ref ≤ d + tol ∧ d ≤ ref + tol := by
  simp [inWindow, absDiff_le_iff]

theorem isTerminator_iff {c : Config} {d : Nat} : isTerminator c d = true ↔ c.termUs ≤ d := by
  simp [isTerminator]

/-- A SHORT or LONG answer comes from one of the four windows, and never for duration 0. -/
theorem classifyShortLong_ne_none {c : Config} {d : Nat} {fz : Tolerance}
    (h : classifyShortLong c d fz ≠ .none) :
    d ≠ 0 ∧ (inWindow c.shortUs c.tolStrict d = true ∨ inWindow c.longUs c.tolStrict d = true ∨
      (fz = .fuzzy ∧ inWindow c.shortUs c.tolFuzzySl d = true) ∨
      (fz = .fuzzy ∧ inWindow c.longUs c.tolFuzzySl d = true)) := by
  unfold classifyShortLong at h
  split_ifs at h with h0 h1 h2 h3 h4 <;> simp_all

/-- A duration that starts a session lies below the terminator threshold (R73). -/
theorem lt_termUs_of_classify {c : Config} (hc : c.coherent) {d : Nat} {fz : Tolerance}
    (h : classifyShortLong c d fz ≠ .none) : d < c.termUs := by
  obtain ⟨⟨-, -, -, -, -, ⟨-, -, h1, h2, h3⟩, -⟩, -, h4, -⟩ := hc
  obtain ⟨-, h | h | ⟨-, h⟩ | ⟨-, h⟩⟩ := classifyShortLong_ne_none h <;>
  · have := (inWindow_iff.1 h).2
    omega

end Sys2Proof.Machine
end

