-- ==== Sys2Proof/Laws/Memory.lean ====
section
/-! SUPPORT. The laws of a memory: read after write, the canonical form kept by every write, and equal
canonical memories from equal reads. -/

namespace Sys2Proof.Machine.Memory

@[simp] theorem read_nil (i : Nat) : Memory.read [] i = none := rfl

theorem read_write_same (m : Memory) (i v : Nat) : (m.write i v).read i = some v := by
  induction m with
  | nil => simp [write, read]
  | cons c m ih =>
    obtain ⟨j, u⟩ := c
    unfold write
    split
    · simp [read]
    · split
      · simp [read]
      · simp [read, *]

theorem read_write_other (m : Memory) {i k : Nat} (v : Nat) (h : k ≠ i) :
    (m.write i v).read k = m.read k := by
  induction m with
  | nil => simp [write, read, h]
  | cons c m ih =>
    obtain ⟨j, u⟩ := c
    unfold write
    split
    · simp [read, h]
    · split
      · next hij => subst hij; simp [read, h]
      · simp [read, ih]

theorem read_write (m : Memory) (i v k : Nat) :
    (m.write i v).read k = if k = i then some v else m.read k := by
  split
  · next h => subst h; exact read_write_same m k v
  · next h => exact read_write_other m v h

/-- A write adds its own pair and no other. -/
theorem mem_write {m : Memory} {i v : Nat} {c : Nat × Nat} (h : c ∈ m.write i v) :
    c = (i, v) ∨ c ∈ m := by
  induction m with
  | nil => simpa [write] using h
  | cons d m ih =>
    obtain ⟨j, u⟩ := d
    unfold write at h
    split at h
    · simpa using h
    · split at h
      · rcases List.mem_cons.1 h with h | h <;> simp [h]
      · rcases List.mem_cons.1 h with h | h
        · simp [h]
        · rcases ih h with h | h <;> simp [h]

theorem mem_of_read {m : Memory} {i v : Nat} (h : m.read i = some v) : (i, v) ∈ m := by
  induction m with
  | nil => simp at h
  | cons c m ih =>
    obtain ⟨j, u⟩ := c
    unfold read at h
    split at h
    · next hij => simp_all
    · exact List.mem_cons_of_mem _ (ih h)

theorem wf_nil : Memory.wf [] := List.Pairwise.nil

/-- Every write keeps the canonical form. -/
theorem wf_write {m : Memory} (h : m.wf) (i v : Nat) : (m.write i v).wf := by
  induction m with
  | nil => simp [write, wf]
  | cons c m ih =>
    obtain ⟨j, u⟩ := c
    have hw : (∀ k ∈ m.map Prod.fst, j < k) ∧ wf m := by simpa [wf] using h
    unfold write
    split
    · next hij =>
      refine List.Pairwise.cons ?_ h
      intro k hk
      rcases List.mem_cons.1 hk with rfl | hk
      · exact hij
      · exact Nat.lt_trans hij (hw.1 k hk)
    · split
      · next hij => subst hij; exact h
      · next h1 h2 =>
        refine List.Pairwise.cons ?_ (ih hw.2)
        intro k hk
        obtain ⟨c, hc, rfl⟩ := List.mem_map.1 hk
        rcases mem_write hc with rfl | hc
        · show j < i
          omega
        · exact hw.1 _ (List.mem_map_of_mem hc)

theorem fits_nil (cap width : Nat) : Memory.fits cap width [] := by simp [fits]

theorem fits_write {cap width : Nat} {m : Memory} (h : m.fits cap width) {i v : Nat} (hi : i < cap)
    (hv : v < 2 ^ width) : (m.write i v).fits cap width := by
  intro c hc
  rcases mem_write hc with rfl | hc
  · exact ⟨hi, hv⟩
  · exact h c hc

theorem lt_of_read {cap width : Nat} {m : Memory} (h : m.fits cap width) {i v : Nat}
    (hr : m.read i = some v) : i < cap ∧ v < 2 ^ width := h _ (mem_of_read hr)

/-- Below every listed index nothing is listed. -/
theorem read_eq_none_of_lt {m : Memory} {i : Nat} (h : ∀ k ∈ m.map Prod.fst, i < k) :
    m.read i = none := by
  induction m with
  | nil => rfl
  | cons c m ih =>
    obtain ⟨j, u⟩ := c
    have hj : i < j := h j (by simp)
    unfold read
    rw [if_neg (by omega)]
    exact ih fun k hk => h k (by simp at hk ⊢; exact Or.inr hk)

/-- Equal memories are equal data: two canonical memories that read alike are the same list. -/
theorem eq_of_read_eq {m n : Memory} (hm : m.wf) (hn : n.wf) (h : ∀ i, m.read i = n.read i) :
    m = n := by
  induction m generalizing n with
  | nil =>
    cases n with
    | nil => rfl
    | cons c n => have := h c.1; simp [read] at this
  | cons c m ih =>
    obtain ⟨j, u⟩ := c
    have hw : (∀ k ∈ m.map Prod.fst, j < k) ∧ wf m := by simpa [wf] using hm
    cases n with
    | nil => have := h j; simp [read] at this
    | cons d n =>
      obtain ⟨k, v⟩ := d
      have hw' : (∀ l ∈ n.map Prod.fst, k < l) ∧ wf n := by simpa [wf] using hn
      have hjk : j = k := by
        by_contra hne
        rcases Nat.lt_or_gt_of_ne hne with hlt | hlt
        · have := h j
          rw [show Memory.read ((k, v) :: n) j = none from
            read_eq_none_of_lt (by
              intro l hl
              rcases List.mem_cons.1 hl with rfl | hl
              · exact hlt
              · exact Nat.lt_trans hlt (hw'.1 l hl))] at this
          simp [read] at this
        · have := h k
          rw [show Memory.read ((j, u) :: m) k = none from
            read_eq_none_of_lt (by
              intro l hl
              rcases List.mem_cons.1 hl with rfl | hl
              · exact hlt
              · exact Nat.lt_trans hlt (hw.1 l hl))] at this
          simp [read] at this
      subst hjk
      have huv : u = v := by have := h j; simpa [read] using this
      subst huv
      congr 1
      refine ih hw.2 hw'.2 fun i => ?_
      by_cases hij : i = j
      · subst hij
        rw [read_eq_none_of_lt hw.1, read_eq_none_of_lt hw'.1]
      · have := h i
        simpa [read, hij] using this

end Sys2Proof.Machine.Memory
end

