-- ==== Sys2Proof/Laws/State.lean ====
section
/-! SUPPORT. One lemma per field per named update of the state, so that no later proof unfolds one:
`respond` (writes the responses alone), `resetBlock` (the block's own state alone), `presentFirst` (the
consumer's stream and the turns alone). -/

namespace Sys2Proof.Machine

@[simp] theorem respond_cfg (s : State) (sts : Sts) (d : Word) : (respond s sts d).cfg = s.cfg := rfl
@[simp] theorem respond_en (s : State) (sts : Sts) (d : Word) : (respond s sts d).en = s.en := rfl
@[simp] theorem respond_cst (s : State) (sts : Sts) (d : Word) : (respond s sts d).cst = s.cst := rfl
@[simp] theorem respond_lastUs (s : State) (sts : Sts) (d : Word) : (respond s sts d).lastUs = s.lastUs := rfl
@[simp] theorem respond_scr (s : State) (sts : Sts) (d : Word) : (respond s sts d).scr = s.scr := rfl
@[simp] theorem respond_swp (s : State) (sts : Sts) (d : Word) : (respond s sts d).swp = s.swp := rfl
@[simp] theorem respond_sfill (s : State) (sts : Sts) (d : Word) : (respond s sts d).sfill = s.sfill := rfl
@[simp] theorem respond_ring (s : State) (sts : Sts) (d : Word) : (respond s sts d).ring = s.ring := rfl
@[simp] theorem respond_offs (s : State) (sts : Sts) (d : Word) : (respond s sts d).offs = s.offs := rfl
@[simp] theorem respond_qhead (s : State) (sts : Sts) (d : Word) : (respond s sts d).qhead = s.qhead := rfl
@[simp] theorem respond_qtail (s : State) (sts : Sts) (d : Word) : (respond s sts d).qtail = s.qtail := rfl
@[simp] theorem respond_qused (s : State) (sts : Sts) (d : Word) : (respond s sts d).qused = s.qused := rfl
@[simp] theorem respond_qwp (s : State) (sts : Sts) (d : Word) : (respond s sts d).qwp = s.qwp := rfl
@[simp] theorem respond_outValid (s : State) (sts : Sts) (d : Word) : (respond s sts d).outValid = s.outValid := rfl
@[simp] theorem respond_outLen (s : State) (sts : Sts) (d : Word) : (respond s sts d).outLen = s.outLen := rfl
@[simp] theorem respond_outTs (s : State) (sts : Sts) (d : Word) : (respond s sts d).outTs = s.outTs := rfl
@[simp] theorem respond_outDur (s : State) (sts : Sts) (d : Word) : (respond s sts d).outDur = s.outDur := rfl
@[simp] theorem respond_edges (s : State) (sts : Sts) (d : Word) : (respond s sts d).edges = s.edges := rfl
@[simp] theorem respond_cmds (s : State) (sts : Sts) (d : Word) : (respond s sts d).cmds = s.cmds := rfl
@[simp] theorem respond_resets (s : State) (sts : Sts) (d : Word) : (respond s sts d).resets = s.resets := rfl
@[simp] theorem respond_turns (s : State) (sts : Sts) (d : Word) : (respond s sts d).turns = s.turns := rfl
@[simp] theorem respond_draws (s : State) (sts : Sts) (d : Word) : (respond s sts d).draws = s.draws := rfl
@[simp] theorem respond_responses (s : State) (sts : Sts) (d : Word) :
    (respond s sts d).responses = s.responses ++ [⟨sts, d⟩] := rfl

@[simp] theorem resetBlock_cfg (s : State) : (resetBlock s).cfg = s.cfg := rfl
@[simp] theorem resetBlock_en (s : State) : (resetBlock s).en = false := rfl
@[simp] theorem resetBlock_cst (s : State) : (resetBlock s).cst = .idle := rfl
@[simp] theorem resetBlock_lastUs (s : State) :
    (resetBlock s).lastUs = trunc s.cfg.clkW (Config.freeLastUs s.draws) := rfl
@[simp] theorem resetBlock_scr (s : State) : (resetBlock s).scr = [] := rfl
@[simp] theorem resetBlock_swp (s : State) : (resetBlock s).swp = 0 := rfl
@[simp] theorem resetBlock_sfill (s : State) : (resetBlock s).sfill = 0 := rfl
@[simp] theorem resetBlock_ring (s : State) : (resetBlock s).ring = [] := rfl
@[simp] theorem resetBlock_offs (s : State) : (resetBlock s).offs = [] := rfl
@[simp] theorem resetBlock_qhead (s : State) : (resetBlock s).qhead = 0 := rfl
@[simp] theorem resetBlock_qtail (s : State) : (resetBlock s).qtail = 0 := rfl
@[simp] theorem resetBlock_qused (s : State) : (resetBlock s).qused = 0 := rfl
@[simp] theorem resetBlock_qwp (s : State) : (resetBlock s).qwp = 0 := rfl
@[simp] theorem resetBlock_outValid (s : State) : (resetBlock s).outValid = false := rfl
@[simp] theorem resetBlock_outLen (s : State) : (resetBlock s).outLen = 0 := rfl
@[simp] theorem resetBlock_outTs (s : State) : (resetBlock s).outTs = none := rfl
@[simp] theorem resetBlock_outDur (s : State) : (resetBlock s).outDur = [] := rfl
@[simp] theorem resetBlock_edges (s : State) : (resetBlock s).edges = s.edges := rfl
@[simp] theorem resetBlock_cmds (s : State) : (resetBlock s).cmds = s.cmds := rfl
@[simp] theorem resetBlock_resets (s : State) : (resetBlock s).resets = s.resets := rfl
@[simp] theorem resetBlock_turns (s : State) : (resetBlock s).turns = s.turns := rfl
@[simp] theorem resetBlock_draws (s : State) : (resetBlock s).draws = s.draws := rfl
@[simp] theorem resetBlock_responses (s : State) : (resetBlock s).responses = s.responses := rfl

@[simp] theorem presentFirst_cfg (w : Word) (s : State) : (presentFirst w s).cfg = s.cfg := rfl
@[simp] theorem presentFirst_en (w : Word) (s : State) : (presentFirst w s).en = s.en := rfl
@[simp] theorem presentFirst_cst (w : Word) (s : State) : (presentFirst w s).cst = s.cst := rfl
@[simp] theorem presentFirst_lastUs (w : Word) (s : State) : (presentFirst w s).lastUs = s.lastUs := rfl
@[simp] theorem presentFirst_scr (w : Word) (s : State) : (presentFirst w s).scr = s.scr := rfl
@[simp] theorem presentFirst_swp (w : Word) (s : State) : (presentFirst w s).swp = s.swp := rfl
@[simp] theorem presentFirst_sfill (w : Word) (s : State) : (presentFirst w s).sfill = s.sfill := rfl
@[simp] theorem presentFirst_ring (w : Word) (s : State) : (presentFirst w s).ring = s.ring := rfl
@[simp] theorem presentFirst_offs (w : Word) (s : State) : (presentFirst w s).offs = s.offs := rfl
@[simp] theorem presentFirst_qhead (w : Word) (s : State) : (presentFirst w s).qhead = s.qhead := rfl
@[simp] theorem presentFirst_qtail (w : Word) (s : State) : (presentFirst w s).qtail = s.qtail := rfl
@[simp] theorem presentFirst_qused (w : Word) (s : State) : (presentFirst w s).qused = s.qused := rfl
@[simp] theorem presentFirst_qwp (w : Word) (s : State) : (presentFirst w s).qwp = s.qwp := rfl
@[simp] theorem presentFirst_outValid (w : Word) (s : State) : (presentFirst w s).outValid = s.outValid := rfl
@[simp] theorem presentFirst_outLen (w : Word) (s : State) : (presentFirst w s).outLen = s.outLen := rfl
@[simp] theorem presentFirst_outTs (w : Word) (s : State) : (presentFirst w s).outTs = s.outTs := rfl
@[simp] theorem presentFirst_outDur (w : Word) (s : State) : (presentFirst w s).outDur = s.outDur := rfl
@[simp] theorem presentFirst_edges (w : Word) (s : State) : (presentFirst w s).edges = s.edges := rfl
@[simp] theorem presentFirst_cmds (w : Word) (s : State) : (presentFirst w s).cmds = w :: s.cmds := rfl
@[simp] theorem presentFirst_resets (w : Word) (s : State) : (presentFirst w s).resets = s.resets := rfl
@[simp] theorem presentFirst_turns (w : Word) (s : State) : (presentFirst w s).turns = .consumer :: s.turns := rfl
@[simp] theorem presentFirst_draws (w : Word) (s : State) : (presentFirst w s).draws = s.draws := rfl
@[simp] theorem presentFirst_responses (w : Word) (s : State) : (presentFirst w s).responses = s.responses := rfl

/-- An illegal word and a legal one answer through the same operation. -/
theorem respondIllegal_eq (s : State) : respondIllegal s = respond s .illegal 0 := rfl

end Sys2Proof.Machine
end

