-- ==== Sys2Proof/Laws/Ops.lean ====
section
/-! SUPPORT. What each shared operation of Machine/Ops.lean can do, said once: an element access, a run of
reads, the outcome of a transaction, and taking the next input. -/

namespace Sys2Proof.Machine

/-! ### Element accesses -/

theorem getAt_eq_ok {a : Space} {cap : Nat} {m : Memory} {i v : Nat} :
    getAt a cap m i = .ok v ↔ i < cap ∧ m.read i = some v := by
  unfold getAt
  split
  · split <;> simp_all
  · simp_all

theorem putAt_eq_ok {a : Space} {cap : Nat} {m m' : Memory} {i v : Nat} :
    putAt a cap m i v = .ok m' ↔ i < cap ∧ m' = m.write i v := by
  unfold putAt
  split <;> simp_all [eq_comm]

theorem readScr_eq_ok {s : State} {i v : Nat} :
    readScr s i = .ok v ↔ i < s.cfg.scrCap ∧ s.scr.read i = some v := getAt_eq_ok

theorem readRing_eq_ok {s : State} {i v : Nat} :
    readRing s i = .ok v ↔ i < s.cfg.ringCap ∧ s.ring.read i = some v := getAt_eq_ok

theorem readOffs_eq_ok {s : State} {i v : Nat} :
    readOffs s i = .ok v ↔ i < s.cfg.offsCap ∧ s.offs.read i = some v := getAt_eq_ok

theorem readOutDur_eq_ok {s : State} {i v : Nat} :
    readOutDur s i = .ok v ↔ i < s.cfg.scrCap ∧ s.outDur.read i = some v := getAt_eq_ok

theorem readOutTs_eq_ok {s : State} {v : Nat} : readOutTs s = .ok v ↔ s.outTs = some v := by
  unfold readOutTs
  split <;> simp_all

theorem writeScr_eq_ok {s t : State} {i v : Nat} :
    writeScr s i v = .ok t ↔ i < s.cfg.scrCap ∧ t = { s with scr := s.scr.write i v } := by
  unfold writeScr putAt
  split_ifs <;> simp_all [eq_comm]

theorem writeRing_eq_ok {s t : State} {i v : Nat} :
    writeRing s i v = .ok t ↔ i < s.cfg.ringCap ∧ t = { s with ring := s.ring.write i v } := by
  unfold writeRing putAt
  split_ifs <;> simp_all [eq_comm]

theorem writeOffs_eq_ok {s t : State} {i v : Nat} :
    writeOffs s i v = .ok t ↔ i < s.cfg.offsCap ∧ t = { s with offs := s.offs.write i v } := by
  unfold writeOffs putAt
  split_ifs <;> simp_all [eq_comm]

theorem writeOutDur_eq_ok {s t : State} {i v : Nat} :
    writeOutDur s i v = .ok t ↔ i < s.cfg.scrCap ∧ t = { s with outDur := s.outDur.write i v } := by
  unfold writeOutDur putAt
  split_ifs <;> simp_all [eq_comm]

/-! ### A run of reads -/

/-- `collect` answers the list of the elements read, one for each index, and only where each read
answers. -/
theorem collect_eq_ok {get : Nat → Except Fault Nat} {n k : Nat} {vs : List Nat} :
    collect get k n = .ok vs ↔
      vs.length = n ∧ ∀ i, i < n → ∃ v, vs[i]? = some v ∧ get (k + i) = .ok v := by
  induction n generalizing k vs with
  | zero =>
    cases vs <;> simp [collect]
  | succ n ih =>
    unfold collect
    constructor
    · intro h
      split at h
      · cases h
      · next v hv =>
        split at h
        · cases h
        · next ws hws =>
          cases h
          obtain ⟨hlen, hall⟩ := ih.1 hws
          refine ⟨by simp [hlen], fun i hi => ?_⟩
          cases i with
          | zero => exact ⟨v, by simp, by simpa using hv⟩
          | succ i =>
            obtain ⟨w, hw, hg⟩ := hall i (by omega)
            exact ⟨w, by simpa using hw, by rw [← hg]; congr 1; omega⟩
    · rintro ⟨hlen, hall⟩
      cases vs with
      | nil => simp at hlen
      | cons v ws =>
        obtain ⟨v', hv', hg⟩ := hall 0 (by omega)
        have hv : v = v' := by simpa using hv'
        subst hv
        have hg' : get k = .ok v := by simpa using hg
        have hws : collect get (k + 1) n = .ok ws := by
          refine ih.2 ⟨by simpa using hlen, fun i hi => ?_⟩
          obtain ⟨w, hw, hg⟩ := hall (i + 1) (by omega)
          exact ⟨w, by simpa using hw, by rw [← hg]; congr 1; omega⟩
        rw [hg']
        simp only [hws]

/-! ### Outcomes -/

theorem finish_eq_next {r : Except Fault State} {t : State} : finish r = .next t ↔ r = .ok t := by
  cases r <;> simp [finish]

theorem finish_ne_refused {r : Except Fault State} {x : Refusal} : finish r ≠ .refused x := by
  cases r <;> simp [finish]

/-! ### Taking the next input -/

theorem nextSource_mem {s : State} {a : Source} (h : nextSource s = some a) : ready s a = true := by
  unfold nextSource at h
  split at h
  · cases h
  · next b hb =>
    cases h
    have : a ∈ [Source.producer, .consumer, .resetInput].filter (ready s) := by rw [hb]; simp
    exact (List.mem_filter.1 this).2
  · next b c cs hb =>
    split at h
    · next hm =>
      cases h
      rw [← hb] at hm
      exact (List.mem_filter.1 hm).2
    · cases h
      have : a ∈ [Source.producer, .consumer, .resetInput].filter (ready s) := by rw [hb]; simp
      exact (List.mem_filter.1 this).2

theorem nextSource_eq_none {s : State} :
    nextSource s = none ↔ s.edges = [] ∧ s.cmds = [] ∧ s.resets = 0 := by
  constructor
  · intro h
    unfold nextSource at h
    split at h
    · next hb =>
      have hno : ∀ a ∈ [Source.producer, .consumer, .resetInput], ready s a = false := by
        intro a ha
        by_contra hr
        have : a ∈ [Source.producer, .consumer, .resetInput].filter (ready s) :=
          List.mem_filter.2 ⟨ha, by simpa using hr⟩
        rw [hb] at this
        cases this
      refine ⟨?_, ?_, ?_⟩
      · have := hno .producer (by simp)
        simpa [ready] using this
      · have := hno .consumer (by simp)
        simpa [ready] using this
      · have := hno .resetInput (by simp)
        simpa [ready] using this
    · cases h
    · split at h <;> cases h
  · rintro ⟨he, hc, hr⟩
    simp [nextSource, ready, he, hc, hr]

/-- Whatever input is pending, the source whose turn it is goes first if it has something pending. -/
theorem nextSource_of_turn {s : State} (h : ready s (turn s) = true) :
    nextSource s = some (turn s) := by
  have hm : turn s ∈ [Source.producer, .consumer, .resetInput].filter (ready s) := by
    refine List.mem_filter.2 ⟨?_, h⟩
    cases turn s <;> simp
  unfold nextSource
  split
  · next hb => rw [hb] at hm; cases hm
  · next b hb => rw [hb] at hm; simp at hm; rw [hm]
  · next b c cs hb => rw [if_pos (hb ▸ hm)]

/-- Taking an input takes the oldest of exactly one stream, and counts one turn and one draw. -/
theorem takeNext_cases {s s' : State} {t : Transaction} (h : takeNext s = some (t, s')) :
    (∃ e es, t = .edge e ∧ s.edges = e :: es ∧
      s' = { s with edges := es, turns := s.turns.tail, draws := s.draws + 1 }) ∨
    (∃ w ws, t = .cmd w ∧ s.cmds = w :: ws ∧
      s' = { s with cmds := ws, turns := s.turns.tail, draws := s.draws + 1 }) ∨
    (∃ n, t = .reset ∧ s.resets = n + 1 ∧
      s' = { s with resets := n, turns := s.turns.tail, draws := s.draws + 1 }) := by
  unfold takeNext at h
  split at h
  · cases h
  · next a _ =>
    cases a with
    | producer =>
      cases he : s.edges with
      | nil => simp [takeFrom, he] at h
      | cons e es =>
        simp only [takeFrom, he, Option.some.injEq, Prod.mk.injEq] at h
        exact .inl ⟨e, es, h.1.symm, rfl, h.2.symm⟩
    | consumer =>
      cases hc : s.cmds with
      | nil => simp [takeFrom, hc] at h
      | cons w ws =>
        simp only [takeFrom, hc, Option.some.injEq, Prod.mk.injEq] at h
        exact .inr (.inl ⟨w, ws, h.1.symm, rfl, h.2.symm⟩)
    | resetInput =>
      cases hr : s.resets with
      | zero => simp [takeFrom, hr] at h
      | succ n =>
        simp only [takeFrom, hr, Option.some.injEq, Prod.mk.injEq] at h
        exact .inr (.inr ⟨n, h.1.symm, rfl, h.2.symm⟩)

theorem takeNext_eq_none {s : State} :
    takeNext s = none ↔ s.edges = [] ∧ s.cmds = [] ∧ s.resets = 0 := by
  rw [← nextSource_eq_none]
  unfold takeNext
  split
  · next h => simp [h]
  · next a h =>
    have hr := nextSource_mem h
    simp only [h, reduceCtorEq, iff_false]
    cases a <;> simp only [ready] at hr <;> simp only [takeFrom]
    · cases he : s.edges <;> simp_all
    · cases he : s.cmds <;> simp_all
    · cases he : s.resets <;> simp_all

/-- A step answers a next state in one of four ways: nothing was pending, or one transaction of one of
the three kinds ran. -/
theorem step_cases {s t : State} (h : step s = .next t) :
    s.cfg.wf ∧
      ((takeNext s = none ∧ t = s) ∨
        ∃ tr s', takeNext s = some (tr, s') ∧ transact tr s' = .next t) := by
  unfold step at h
  split at h
  · next hwf =>
    refine ⟨hwf, ?_⟩
    split at h
    · next hn => cases h; exact .inl ⟨hn, rfl⟩
    · next tr s' hn => exact .inr ⟨tr, s', hn, h⟩
  · cases h

end Sys2Proof.Machine
end

