-- ==== Sys2Proof/Laws/Queue.lean ====
section
/-! SUPPORT. What each operation of the packet queue can do, said once over the list of packets the ring
holds (`queueHolds`): evict, the eviction loop, the append of push, push, and the copy of POP. -/

namespace Sys2Proof.Machine

/-! ### What the arrays hold depends on the arrays alone -/

theorem ringHolds_congr {s t : State} {start : Nat} {p : Packet} (hr : t.ring = s.ring)
    (hc : t.cfg = s.cfg) : ringHolds t start p ↔ ringHolds s start p := by
  simp [ringHolds, hr, hc]

theorem laidOut_congr {s t : State} (hr : t.ring = s.ring) (ho : t.offs = s.offs)
    (hc : t.cfg = s.cfg) (ps : List Packet) (i start : Nat) :
    laidOut t ps i start ↔ laidOut s ps i start := by
  induction ps generalizing i start with
  | nil => exact Iff.rfl
  | cons p ps ih => simp [laidOut, ringHolds_congr hr hc, ho, hc, ih]

theorem queueHolds_congr {s t : State} (hr : t.ring = s.ring) (ho : t.offs = s.offs)
    (hc : t.cfg = s.cfg) (hh : t.qhead = s.qhead) (ht : t.qtail = s.qtail) (hu : t.qused = s.qused)
    (hw : t.qwp = s.qwp) (ps : List Packet) : queueHolds t ps ↔ queueHolds s ps := by
  simp [queueHolds, laidOut_congr hr ho hc, qcount, hc, hh, ht, hu, hw]

theorem outputHolds_congr {s t : State} (hl : t.outLen = s.outLen) (hts : t.outTs = s.outTs)
    (hd : t.outDur = s.outDur) (p : Packet) : outputHolds t p ↔ outputHolds s p := by
  simp [outputHolds, hl, hts, hd]

/-! ### Lists of packets -/

@[simp] theorem totalSlots_nil (c : Config) : totalSlots c [] = 0 := rfl

@[simp] theorem totalSlots_cons (c : Config) (p : Packet) (ps : List Packet) :
    totalSlots c (p :: ps) = p.slots c + totalSlots c ps := rfl

theorem totalSlots_append (c : Config) (ps qs : List Packet) :
    totalSlots c (ps ++ qs) = totalSlots c ps + totalSlots c qs := by
  induction ps with
  | nil => simp
  | cons p ps ih => simp [ih, Nat.add_assoc]

theorem Packet.slots_eq (c : Config) (p : Packet) : p.slots c = p.durs.length + c.hdrSlots := rfl

theorem survivors_nil (c : Config) (f : Nat) : survivors c f [] = [] := rfl

theorem survivors_cons (c : Config) (f : Nat) (p : Packet) (ps : List Packet) :
    survivors c f (p :: ps) =
      if c.ringCap < totalSlots c (p :: ps) + f ∨ (p :: ps).length = c.offsCap - 1 then
        survivors c f ps
      else p :: ps := rfl

/-- What survives is a suffix: eviction takes from the oldest end. -/
theorem survivors_suffix (c : Config) (f : Nat) (ps : List Packet) : survivors c f ps <:+ ps := by
  induction ps with
  | nil => exact List.suffix_refl _
  | cons p ps ih =>
    rw [survivors_cons]
    split
    · exact ih.trans (List.suffix_cons p ps)
    · exact List.suffix_refl _

/-- What survives leaves room for the footprint and an offset entry. -/
theorem survivors_fit {c : Config} {f : Nat} (hf : f ≤ c.ringCap) (ho : 2 ≤ c.offsCap)
    (ps : List Packet) :
    totalSlots c (survivors c f ps) + f ≤ c.ringCap ∧
      (survivors c f ps).length ≠ c.offsCap - 1 := by
  induction ps with
  | nil => rw [survivors_nil]; simp; omega
  | cons p ps ih =>
    rw [survivors_cons]
    split
    · exact ih
    · next h => exact ⟨by omega, by omega⟩

/-! ### Eviction -/

theorem needsRoom_iff {s : State} {f : Nat} {ps : List Packet} (h : queueHolds s ps) :
    needsRoom s f = true ↔
      s.cfg.ringCap < totalSlots s.cfg ps + f ∨ ps.length = s.cfg.offsCap - 1 := by
  obtain ⟨start, -, -, hlen, hused, -, -⟩ := h
  simp [needsRoom, offsetRingFull, hlen, hused]

/-- Evicting from a queue that holds `p :: ps` leaves one that holds `ps`; only the tail and the
accounting change. -/
theorem evict_spec {s : State} {p : Packet} {ps : List Packet} (h : queueHolds s (p :: ps))
    (hhead : s.qhead < s.cfg.offsCap) (htail : s.qtail < s.cfg.offsCap) :
    ∃ t, evict s = .ok t ∧ queueHolds t ps ∧
      t = { s with qtail := (s.qtail + 1) % s.cfg.offsCap, qused := s.qused - p.slots s.cfg } := by
  obtain ⟨start, hst, ⟨hoff, hring, hrest⟩, hlen, hused, hle, hwp⟩ := h
  have hro : readOffs s s.qtail = .ok start := readOffs_eq_ok.2 ⟨htail, hoff⟩
  have hrr : readRing s start = .ok p.durs.length := readRing_eq_ok.2 ⟨hst, hring.1⟩
  refine ⟨{ s with qtail := (s.qtail + 1) % s.cfg.offsCap, qused := s.qused - p.slots s.cfg },
    ?_, ?_, rfl⟩
  · unfold evict
    simp only [hro, hrr]
    rfl
  · have hne : s.qhead ≠ s.qtail := by
      intro he
      rw [qcount, he, subMod_self] at hlen
      simp at hlen
    have hcount := subMod_succ_right hhead htail hne
    rw [totalSlots_cons] at hused
    refine ⟨(start + p.slots s.cfg) % s.cfg.ringCap, Nat.mod_lt _ (by omega), ?_, ?_, ?_, ?_, ?_⟩
    · refine (laidOut_congr (s := s) ?_ ?_ ?_ ps _ _).2 hrest <;> rfl
    · show ps.length = subMod s.qhead ((s.qtail + 1) % s.cfg.offsCap) s.cfg.offsCap
      rw [hcount]
      rw [qcount, List.length_cons] at hlen
      omega
    · show s.qused - p.slots s.cfg = totalSlots s.cfg ps
      omega
    · show s.qused - p.slots s.cfg ≤ s.cfg.ringCap
      omega
    · show ((start + p.slots s.cfg) % s.cfg.ringCap + (s.qused - p.slots s.cfg)) % s.cfg.ringCap = s.qwp
      rw [ring_step_assoc, ← hwp]
      congr 1
      omega

/-- The eviction loop leaves the survivors, `k` packets fewer with the tail `k` places on; only the tail and
the accounting change. -/
theorem makeRoom_spec {f : Nat} {ps : List Packet} {s : State} {fuel : Nat}
    (h : queueHolds s ps) (hhead : s.qhead < s.cfg.offsCap) (htail : s.qtail < s.cfg.offsCap)
    (hf : f ≤ s.cfg.ringCap) (ho : 2 ≤ s.cfg.offsCap) (hfuel : ps.length ≤ fuel) :
    ∃ t, makeRoom f fuel s = .ok t ∧ queueHolds t (survivors s.cfg f ps) ∧
      (∃ k, k ≤ ps.length ∧ survivors s.cfg f ps = ps.drop k ∧
        t.qtail = (s.qtail + k) % s.cfg.offsCap) ∧
      t = { s with qtail := t.qtail, qused := t.qused } := by
  induction ps generalizing s fuel with
  | nil =>
    have hn : needsRoom s f = false := by
      have := needsRoom_iff (f := f) h
      simp only [totalSlots_nil, List.length_nil] at this
      rw [← Bool.not_eq_true, this]
      omega
    refine ⟨s, ?_, by simpa [survivors_nil] using h,
      ⟨0, by simp, rfl, (Nat.mod_eq_of_lt htail).symm⟩, rfl⟩
    cases fuel <;> simp [makeRoom, hn]
  | cons p ps ih =>
    obtain ⟨fuel, rfl⟩ : ∃ k, fuel = k + 1 := ⟨fuel - 1, by simp at hfuel; omega⟩
    have hn := needsRoom_iff (f := f) h
    rw [survivors_cons]
    by_cases hc : s.cfg.ringCap < totalSlots s.cfg (p :: ps) + f ∨
        (p :: ps).length = s.cfg.offsCap - 1
    · obtain ⟨u, hu, hq, heq⟩ := evict_spec h hhead htail
      have hcfg : u.cfg = s.cfg := by rw [heq]
      have hh : u.qhead = s.qhead := by rw [heq]
      have ht : u.qtail < s.cfg.offsCap := by
        rw [heq]
        exact Nat.mod_lt _ (by omega)
      obtain ⟨t, hmk, hqt, ⟨k, hk, hdrop, htt⟩, hteq⟩ := ih (s := u) (fuel := fuel) hq
        (by rw [hcfg, hh]; exact hhead) (by rw [hcfg]; exact ht) (by rw [hcfg]; exact hf)
        (by rw [hcfg]; exact ho) (by simpa using hfuel)
      refine ⟨t, ?_, ?_, ⟨k + 1, by simpa using hk, ?_, ?_⟩, ?_⟩
      · simp only [makeRoom, hn.2 hc, if_true, hu, hmk]
      · rw [if_pos hc, ← hcfg]; exact hqt
      · rw [if_pos hc, ← hcfg]; exact hdrop
      · rw [htt, hcfg, heq]
        show ((s.qtail + 1) % s.cfg.offsCap + k) % s.cfg.offsCap = _
        rw [ring_step_assoc, Nat.add_assoc, Nat.add_comm 1]
      · rw [heq] at hteq
        exact hteq
    · refine ⟨s, ?_, by rw [if_neg hc]; exact h,
        ⟨0, by simp, by rw [if_neg hc]; rfl, (Nat.mod_eq_of_lt htail).symm⟩, rfl⟩
      have : needsRoom s f = false := by rw [← Bool.not_eq_true, hn]; exact hc
      simp [makeRoom, this]

/-! ### The append of push -/

/-- Filling the ring writes the slots behind the header, in order, and no other. -/
theorem fillRing_spec {start : Nat} {vs : List Nat} {k : Nat} {s : State} (hrc : 0 < s.cfg.ringCap)
    (hroom : 2 + k + vs.length ≤ s.cfg.ringCap) :
    ∃ t, fillRing start k vs s = .ok t ∧ t = { s with ring := t.ring } ∧
      (∀ j, j < vs.length → t.ring.read ((start + 2 + k + j) % s.cfg.ringCap) = vs[j]?) ∧
      (∀ x, (∀ j, j < vs.length → x ≠ (start + 2 + k + j) % s.cfg.ringCap) →
        t.ring.read x = s.ring.read x) ∧
      (s.ring.wf → t.ring.wf) ∧
      (s.ring.fits s.cfg.ringCap s.cfg.slotW → (∀ v ∈ vs, v < 2 ^ s.cfg.slotW) →
        t.ring.fits s.cfg.ringCap s.cfg.slotW) := by
  induction vs generalizing k s with
  | nil => exact ⟨s, rfl, rfl, by simp, fun _ _ => rfl, id, fun h _ => h⟩
  | cons v vs ih =>
    have hi : (start + 2 + k) % s.cfg.ringCap < s.cfg.ringCap := Nat.mod_lt _ hrc
    have hw : writeRing s ((start + 2 + k) % s.cfg.ringCap) v =
        .ok { s with ring := s.ring.write ((start + 2 + k) % s.cfg.ringCap) v } :=
      writeRing_eq_ok.2 ⟨hi, rfl⟩
    obtain ⟨t, hfill, hteq, hin, hout, hwf, hfits⟩ :=
      ih (k := k + 1) (s := { s with ring := s.ring.write ((start + 2 + k) % s.cfg.ringCap) v }) hrc
        (by simp only [List.length_cons] at hroom; show 2 + (k + 1) + vs.length ≤ s.cfg.ringCap; omega)
    refine ⟨t, ?_, hteq, ?_, ?_, ?_, ?_⟩
    · simp only [fillRing, hw, hfill]
    · intro j hj
      cases j with
      | zero =>
        rw [Nat.add_zero, hout _ ?_]
        · simpa using Memory.read_write_same _ _ _
        · intro j hj he
          have := ring_slot_inj (s := start + 2 + k) (i := 0) (j := 1 + j) (n := s.cfg.ringCap)
            (by omega) (by simp at hroom; omega) (by
              rw [Nat.add_zero, he]; congr 1; omega)
          omega
      | succ j =>
        have := hin j (by simpa using hj)
        rw [show start + 2 + (k + 1) + j = start + 2 + k + (j + 1) by omega] at this
        simpa using this
    · intro x hx
      rw [hout x ?_]
      · exact Memory.read_write_other _ _ (by simpa using hx 0 (by simp))
      · intro j hj
        have := hx (j + 1) (by simpa using hj)
        rwa [show start + 2 + k + (j + 1) = start + 2 + (k + 1) + j by omega] at this
    · intro h
      exact hwf (Memory.wf_write h _ _)
    · intro h hv
      refine hfits (Memory.fits_write h hi (hv v (by simp))) fun u hu => hv u (by simp [hu])

/-- A queue keeps its layout where no slot and no offset entry of it changes. -/
theorem laidOut_frame {s t : State} (hc : t.cfg = s.cfg) (hdr : 2 ≤ s.cfg.hdrSlots)
    (hrc : 0 < s.cfg.ringCap) {qs : List Packet} {i start : Nat} (hi : i < s.cfg.offsCap)
    (hst : start < s.cfg.ringCap)
    (hring : ∀ j, j < totalSlots s.cfg qs →
      t.ring.read ((start + j) % s.cfg.ringCap) = s.ring.read ((start + j) % s.cfg.ringCap))
    (hoffs : ∀ m, m < qs.length →
      t.offs.read ((i + m) % s.cfg.offsCap) = s.offs.read ((i + m) % s.cfg.offsCap))
    (h : laidOut s qs i start) : laidOut t qs i start := by
  induction qs generalizing i start with
  | nil => trivial
  | cons p qs ih =>
    obtain ⟨ho, ⟨hl, hts, hd⟩, hrest⟩ := h
    have hsl : p.slots s.cfg = p.durs.length + s.cfg.hdrSlots := rfl
    rw [totalSlots_cons] at hring
    refine ⟨?_, ⟨?_, ?_, ?_⟩, ?_⟩
    · have := hoffs 0 (by simp)
      rw [Nat.add_zero, Nat.mod_eq_of_lt hi] at this
      rw [this, ho]
    · have := hring 0 (by omega)
      rw [Nat.add_zero, Nat.mod_eq_of_lt hst] at this
      rw [this, hl]
    · rw [hc, hring 1 (by omega), hts]
    · intro k hk
      have := hring (2 + k) (by omega)
      rw [← Nat.add_assoc] at this
      rw [hc, this, hd k hk]
    · rw [hc]
      refine ih (Nat.mod_lt _ (by omega)) (Nat.mod_lt _ hrc) ?_ ?_ hrest
      · intro j hj
        rw [ring_step_assoc, Nat.add_assoc]
        exact hring _ (by omega)
      · intro m hm
        rw [ring_step_assoc, show i + 1 + m = i + (m + 1) by omega]
        exact hoffs _ (by simpa using hm)

/-- A packet laid out behind the last one is the queue's new last packet. -/
theorem laidOut_snoc {s : State} {qs : List Packet} {p : Packet} {i start : Nat}
    (hi : i < s.cfg.offsCap) (hst : start < s.cfg.ringCap) (h : laidOut s qs i start)
    (ho : s.offs.read ((i + qs.length) % s.cfg.offsCap) =
      some ((start + totalSlots s.cfg qs) % s.cfg.ringCap))
    (hp : ringHolds s ((start + totalSlots s.cfg qs) % s.cfg.ringCap) p) :
    laidOut s (qs ++ [p]) i start := by
  induction qs generalizing i start with
  | nil =>
    simp only [List.length_nil, Nat.add_zero, totalSlots_nil] at ho hp
    rw [Nat.mod_eq_of_lt hi] at ho
    rw [Nat.mod_eq_of_lt hst] at ho hp
    exact ⟨ho, hp, trivial⟩
  | cons q qs ih =>
    obtain ⟨ho', hr, hrest⟩ := h
    refine ⟨ho', hr, ih (Nat.mod_lt _ (by omega)) (Nat.mod_lt _ (by omega)) hrest ?_ ?_⟩
    · rw [ring_step_assoc, ring_step_assoc]
      rw [show i + 1 + qs.length = i + (q :: qs).length by simp; omega,
        Nat.add_assoc, ← totalSlots_cons]
      exact ho
    · rw [ring_step_assoc, Nat.add_assoc, ← totalSlots_cons]
      exact hp

/-- The append of push writes the packet into the ring from the write position on, and no other slot; the
offset entry, the head, the write position and the accounting change, and nothing else. -/
theorem appendPacket_writes {s : State} {p : Packet} (hdr : 2 ≤ s.cfg.hdrSlots)
    (hhead : s.qhead < s.cfg.offsCap) (hw : s.qwp < s.cfg.ringCap)
    (hroom : p.slots s.cfg ≤ s.cfg.ringCap) :
    ∃ t, appendPacket s p.ts p.durs = .ok t ∧ ringWritten s t p ∧
      t = { s with
        ring := t.ring
        offs := s.offs.write s.qhead s.qwp
        qwp := (s.qwp + p.slots s.cfg) % s.cfg.ringCap
        qused := s.qused + p.slots s.cfg
        qhead := (s.qhead + 1) % s.cfg.offsCap } ∧
      (s.ring.wf → t.ring.wf) ∧
      (s.ring.fits s.cfg.ringCap s.cfg.slotW → p.ts < 2 ^ s.cfg.slotW →
        p.durs.length < 2 ^ s.cfg.slotW → (∀ v ∈ p.durs, v < 2 ^ s.cfg.slotW) →
        t.ring.fits s.cfg.ringCap s.cfg.slotW) := by
  have hsl : p.slots s.cfg = p.durs.length + s.cfg.hdrSlots := rfl
  have hrc : 0 < s.cfg.ringCap := by omega
  have hw1 : (s.qwp + 1) % s.cfg.ringCap < s.cfg.ringCap := Nat.mod_lt _ hrc
  -- the three single writes
  let s1 : State := { s with offs := s.offs.write s.qhead s.qwp }
  let s2 : State := { s1 with ring := s.ring.write s.qwp p.durs.length }
  let s3 : State := { s2 with
    ring := (s.ring.write s.qwp p.durs.length).write ((s.qwp + 1) % s.cfg.ringCap) p.ts }
  have h1 : writeOffs s s.qhead s.qwp = .ok s1 := writeOffs_eq_ok.2 ⟨hhead, rfl⟩
  have h2 : writeRing s1 s.qwp p.durs.length = .ok s2 := writeRing_eq_ok.2 ⟨hw, rfl⟩
  have h3 : writeRing s2 ((s.qwp + 1) % s.cfg.ringCap) p.ts = .ok s3 :=
    writeRing_eq_ok.2 ⟨hw1, rfl⟩
  obtain ⟨s4, h4, h4eq, hin, hout, hwf, hfits⟩ :=
    fillRing_spec (start := s.qwp) (vs := p.durs) (k := 0) (s := s3) hrc
      (by show 2 + 0 + p.durs.length ≤ s.cfg.ringCap; omega)
  have hcfg4 : s4.cfg = s.cfg := by rw [h4eq]
  -- no duration falls on a header slot
  have hapart : ∀ i j, i < 2 → j < p.durs.length →
      (s.qwp + i) % s.cfg.ringCap ≠ (s.qwp + 2 + 0 + j) % s.cfg.ringCap := by
    intro i j hi hj he
    have := ring_slot_inj (s := s.qwp) (i := i) (j := 2 + j) (n := s.cfg.ringCap) (by omega)
      (by omega) (by rw [he]; congr 1; omega)
    omega
  have hwmod : (s.qwp + 0) % s.cfg.ringCap = s.qwp := Nat.mod_eq_of_lt hw
  refine ⟨{ s4 with
      qwp := (s.qwp + p.slots s.cfg) % s.cfg.ringCap
      qused := s.qused + p.slots s.cfg
      qhead := (s.qhead + 1) % s.cfg.offsCap }, ?_, ⟨⟨?_, ?_, ?_⟩, ?_⟩, ?_, ?_, ?_⟩
  · unfold appendPacket
    simp only [h1, h2, h3, h4]
    rfl
  · show s4.ring.read s.qwp = some p.durs.length
    rw [hout _ fun j hj he => hapart 0 j (by omega) hj (hwmod.trans he)]
    show Memory.read (Memory.write _ _ _) _ = _
    rw [Memory.read_write_other, Memory.read_write_same]
    intro he
    have := ring_slot_inj (s := s.qwp) (i := 0) (j := 1) (n := s.cfg.ringCap) (by omega)
      (by omega) (by rw [hwmod]; exact he)
    omega
  · show s4.ring.read ((s.qwp + 1) % s4.cfg.ringCap) = some p.ts
    rw [hcfg4, hout _ fun j hj => hapart 1 j (by omega) hj]
    exact Memory.read_write_same _ _ _
  · intro k hk
    show s4.ring.read ((s.qwp + 2 + k) % s4.cfg.ringCap) = p.durs[k]?
    rw [hcfg4]
    exact hin k hk
  · intro x hx
    have hx0 : x ≠ s.qwp := hwmod ▸ hx 0 (by omega)
    show s4.ring.read x = s.ring.read x
    rw [hout x fun j hj => by
      have := hx (2 + j) (by omega)
      rwa [← Nat.add_assoc] at this]
    show Memory.read (Memory.write _ _ _) _ = _
    rw [Memory.read_write_other _ _ (hx 1 (by omega)), Memory.read_write_other _ _ hx0]
  · rw [h4eq]
  · intro h
    exact hwf (Memory.wf_write (Memory.wf_write h _ _) _ _)
  · intro h hts hl hv
    exact hfits (Memory.fits_write (Memory.fits_write h hw hl) hw1 hts) hv

/-- The append of push, once there is room: the packet is the queue's new last one. -/
theorem appendPacket_spec {s : State} {qs : List Packet} {p : Packet} (h : queueHolds s qs)
    (hdr : 2 ≤ s.cfg.hdrSlots) (hhead : s.qhead < s.cfg.offsCap) (htail : s.qtail < s.cfg.offsCap)
    (hroom : totalSlots s.cfg qs + p.slots s.cfg ≤ s.cfg.ringCap)
    (hoff : qs.length + 1 < s.cfg.offsCap) :
    ∃ t, appendPacket s p.ts p.durs = .ok t ∧ queueHolds t (qs ++ [p]) ∧ ringWritten s t p ∧
      t = { s with
        ring := t.ring
        offs := s.offs.write s.qhead s.qwp
        qwp := (s.qwp + p.slots s.cfg) % s.cfg.ringCap
        qused := s.qused + p.slots s.cfg
        qhead := (s.qhead + 1) % s.cfg.offsCap } ∧
      (s.ring.wf → t.ring.wf) ∧
      (s.ring.fits s.cfg.ringCap s.cfg.slotW → p.ts < 2 ^ s.cfg.slotW →
        p.durs.length < 2 ^ s.cfg.slotW → (∀ v ∈ p.durs, v < 2 ^ s.cfg.slotW) →
        t.ring.fits s.cfg.ringCap s.cfg.slotW) := by
  obtain ⟨start, hst, hlaid, hlen, hused, hle, hwp⟩ := h
  have hsl : p.slots s.cfg = p.durs.length + s.cfg.hdrSlots := rfl
  have hrc : 0 < s.cfg.ringCap := by omega
  have hw : s.qwp < s.cfg.ringCap := by rw [← hwp]; exact Nat.mod_lt _ hrc
  obtain ⟨t, hap, hwr, hteq, hkeeps⟩ := appendPacket_writes (p := p) hdr hhead hw (by omega)
  refine ⟨t, hap, ?_, hwr, hteq, hkeeps⟩
  have hcfg : t.cfg = s.cfg := by rw [hteq]
  have hoffs : t.offs = s.offs.write s.qhead s.qwp := by rw [hteq]
  have hqt : t.qtail = s.qtail := by rw [hteq]
  have hcount : qcount s + 1 < s.cfg.offsCap := by omega
  have hheadeq : (s.qtail + qs.length) % s.cfg.offsCap = s.qhead := by
    rw [hlen]; exact subMod_add_self hhead htail
  refine ⟨start, by rw [hcfg]; exact hst, ?_, ?_, ?_, ?_, ?_⟩
  · rw [hqt]
    refine laidOut_snoc (by rw [hcfg]; exact htail) (by rw [hcfg]; exact hst) ?_ ?_ ?_
    · refine laidOut_frame hcfg hdr hrc htail hst ?_ ?_ hlaid
      · intro j hj
        refine hwr.2 _ fun k hk he => ?_
        have := ring_slot_inj (s := start) (i := j) (j := s.qused + k) (n := s.cfg.ringCap)
          (by omega) (by omega) (by rw [he, ← hwp, ring_step_assoc, Nat.add_assoc])
        omega
      · intro m hm
        rw [hoffs]
        refine Memory.read_write_other _ _ fun he => ?_
        have := ring_slot_inj (s := s.qtail) (i := m) (j := qs.length) (n := s.cfg.offsCap)
          (by omega) (by omega) (by rw [he, hheadeq])
        omega
    · rw [hcfg, hoffs, hheadeq, ← hused, hwp]
      exact Memory.read_write_same _ _ _
    · rw [hcfg, ← hused, hwp]
      exact hwr.1
  · rw [qcount, hcfg, hqt, show t.qhead = (s.qhead + 1) % s.cfg.offsCap by rw [hteq],
      subMod_succ_left hhead htail hcount, List.length_append, hlen]
    rfl
  · rw [hcfg, totalSlots_append, show t.qused = s.qused + p.slots s.cfg by rw [hteq], hused]
    simp
  · rw [hcfg, show t.qused = s.qused + p.slots s.cfg by rw [hteq]]
    omega
  · rw [hcfg, show t.qused = s.qused + p.slots s.cfg by rw [hteq],
      show t.qwp = (s.qwp + p.slots s.cfg) % s.cfg.ringCap by rw [hteq], ← hwp, ring_step_assoc,
      Nat.add_assoc]

/-- Push (R83): what it leaves queued is the survivors of the eviction, then the new packet; the ring,
the offset ring, the indices, the write position and the accounting change, and nothing else. -/
theorem push_spec {s : State} {ps : List Packet} {p : Packet} (h : queueHolds s ps)
    (hdr : 2 ≤ s.cfg.hdrSlots) (hhead : s.qhead < s.cfg.offsCap) (htail : s.qtail < s.cfg.offsCap)
    (ho : 2 ≤ s.cfg.offsCap) (hp : p.slots s.cfg ≤ s.cfg.ringCap) :
    ∃ t, push s p.ts p.durs = .ok t ∧
      queueHolds t (survivors s.cfg (p.slots s.cfg) ps ++ [p]) ∧
      t = { s with
        ring := t.ring
        offs := t.offs
        qwp := t.qwp
        qused := t.qused
        qhead := t.qhead
        qtail := t.qtail } ∧
      (∃ k, k ≤ ps.length ∧ survivors s.cfg (p.slots s.cfg) ps = ps.drop k ∧ pushedFrom s t k p) ∧
      (s.ring.wf → t.ring.wf) ∧
      (s.ring.fits s.cfg.ringCap s.cfg.slotW → p.ts < 2 ^ s.cfg.slotW →
        p.durs.length < 2 ^ s.cfg.slotW → (∀ v ∈ p.durs, v < 2 ^ s.cfg.slotW) →
        t.ring.fits s.cfg.ringCap s.cfg.slotW) := by
  have hlen : ps.length < s.cfg.offsCap := by
    obtain ⟨_, -, -, hl, -⟩ := h
    rw [hl]
    exact subMod_lt _ _ (by omega)
  obtain ⟨u, hmk, hqu, ⟨k, hk, hdrop, hut⟩, hueq⟩ :=
    makeRoom_spec (fuel := s.cfg.offsCap) h hhead htail hp ho (by omega)
  have hcfg : u.cfg = s.cfg := by rw [hueq]
  have hfit := survivors_fit (f := p.slots s.cfg) hp ho ps
  have hsuf := (survivors_suffix s.cfg (p.slots s.cfg) ps).length_le
  obtain ⟨t, hap, hqt, hwr, hteq, hwf, hfits⟩ :=
    appendPacket_spec (p := p) hqu (by rw [hcfg]; exact hdr)
      (by rw [hcfg, hueq]; exact hhead) (by rw [hcfg, hut]; exact Nat.mod_lt _ (by omega))
      (by rw [hcfg]; exact hfit.1) (by rw [hcfg]; omega)
  have hring : u.ring = s.ring := by rw [hueq]
  have hwp : u.qwp = s.qwp := by rw [hueq]
  refine ⟨t, ?_, hqt, ?_, ⟨k, hk, hdrop, ?_⟩, ?_, ?_⟩
  · unfold push
    rw [show footprint s.cfg p.durs.length = p.slots s.cfg from rfl]
    simp only [hmk, hap]
  · rw [hueq] at hteq
    rw [hteq]
  · rw [ringWritten, hwp, hcfg, hring] at hwr
    refine ⟨hwr, ?_, ?_, ?_, ?_⟩
    · rw [hteq, hueq]
    · rw [hteq, hueq]
    · rw [hteq, hueq]
    · rw [hteq]; exact hut
  · rw [← hring]; exact hwf
  · rw [hcfg, hring] at hfits
    exact hfits

/-! ### The copy of POP -/

/-- Filling the output buffer writes the elements given, in order, and no other. -/
theorem fillOut_spec {vs : List Nat} {k : Nat} {s : State} (hroom : k + vs.length ≤ s.cfg.scrCap) :
    ∃ t, fillOut k vs s = .ok t ∧ t = { s with outDur := t.outDur } ∧
      (∀ j, j < vs.length → t.outDur.read (k + j) = vs[j]?) ∧
      (∀ x, x < k ∨ k + vs.length ≤ x → t.outDur.read x = s.outDur.read x) ∧
      (s.outDur.wf → t.outDur.wf) ∧
      (s.outDur.fits s.cfg.scrCap s.cfg.slotW → (∀ v ∈ vs, v < 2 ^ s.cfg.slotW) →
        t.outDur.fits s.cfg.scrCap s.cfg.slotW) := by
  induction vs generalizing k s with
  | nil => exact ⟨s, rfl, rfl, by simp, fun _ _ => rfl, id, fun h _ => h⟩
  | cons v vs ih =>
    simp only [List.length_cons] at hroom
    have hk : k < s.cfg.scrCap := by omega
    have hw : writeOutDur s k v = .ok { s with outDur := s.outDur.write k v } :=
      writeOutDur_eq_ok.2 ⟨hk, rfl⟩
    obtain ⟨t, hfill, hteq, hin, hout, hwf, hfits⟩ :=
      ih (k := k + 1) (s := { s with outDur := s.outDur.write k v })
        (by show k + 1 + vs.length ≤ s.cfg.scrCap; omega)
    refine ⟨t, ?_, hteq, ?_, ?_, ?_, ?_⟩
    · simp only [fillOut, hw, hfill]
    · intro j hj
      cases j with
      | zero =>
        rw [Nat.add_zero, hout k (by omega)]
        simpa using Memory.read_write_same _ _ _
      | succ j =>
        have := hin j (by simpa using hj)
        rw [show k + 1 + j = k + (j + 1) by omega] at this
        simpa using this
    · intro x hx
      simp only [List.length_cons] at hx
      rw [hout x (by omega)]
      exact Memory.read_write_other _ _ (by omega)
    · intro h
      exact hwf (Memory.wf_write h _ _)
    · intro h hv
      exact hfits (Memory.fits_write h hk (hv v (by simp))) fun u hu => hv u (by simp [hu])

/-- The reads of POP answer the packet the ring holds. -/
theorem collect_ringHolds {s : State} {start : Nat} {p : Packet} (hrc : 0 < s.cfg.ringCap)
    (h : ringHolds s start p) :
    collect (fun k => readRing s ((start + 2 + k) % s.cfg.ringCap)) 0 p.durs.length =
      .ok p.durs := by
  refine collect_eq_ok.2 ⟨rfl, fun i hi => ⟨p.durs[i], by simp [hi], ?_⟩⟩
  refine readRing_eq_ok.2 ⟨Nat.mod_lt _ hrc, ?_⟩
  have := h.2.2 i hi
  rw [Nat.zero_add, this]
  simp [hi]

/-- POP on a queue that holds `p :: ps` (R88): the output buffer holds `p`, the queue `ps`, the response
is `(OK, L)`; the output buffer, the tail, the accounting and the responses change, and nothing else, and
no element of the buffer past the packet. -/
theorem popPacket_spec {s : State} {p : Packet} {ps : List Packet} (h : queueHolds s (p :: ps))
    (hhead : s.qhead < s.cfg.offsCap) (htail : s.qtail < s.cfg.offsCap)
    (hp : p.durs.length ≤ s.cfg.scrCap) :
    ∃ t, popPacket s = .ok t ∧ queueHolds t ps ∧ outputHolds t p ∧
      t = { s with
        outValid := true
        outLen := p.durs.length
        outTs := some p.ts
        outDur := t.outDur
        qtail := (s.qtail + 1) % s.cfg.offsCap
        qused := s.qused - p.slots s.cfg
        responses := s.responses ++ [⟨.ok, dataOf p.durs.length⟩] } ∧
      (∀ k, p.durs.length ≤ k → t.outDur.read k = s.outDur.read k) ∧
      (s.outDur.wf → t.outDur.wf) ∧
      (s.outDur.fits s.cfg.scrCap s.cfg.slotW → (∀ v ∈ p.durs, v < 2 ^ s.cfg.slotW) →
        t.outDur.fits s.cfg.scrCap s.cfg.slotW) := by
  obtain ⟨u, -, hqu, hueq⟩ := evict_spec h hhead htail
  obtain ⟨start, hst, ⟨hoff, hring, -⟩, -, -, -, -⟩ := h
  have hrc : 0 < s.cfg.ringCap := by omega
  have hro : readOffs s s.qtail = .ok start := readOffs_eq_ok.2 ⟨htail, hoff⟩
  have hrr : readRing s start = .ok p.durs.length := readRing_eq_ok.2 ⟨hst, hring.1⟩
  have hrt : readRing s ((start + 1) % s.cfg.ringCap) = .ok p.ts :=
    readRing_eq_ok.2 ⟨Nat.mod_lt _ hrc, hring.2.1⟩
  have hcol := collect_ringHolds hrc hring
  obtain ⟨v, hfill, hveq, hin, hout, hwf, hfits⟩ :=
    fillOut_spec (vs := p.durs) (k := 0)
      (s := { s with outLen := p.durs.length, outTs := some p.ts }) (by simpa using hp)
  refine ⟨respond
      { v with
        outValid := true
        qtail := (s.qtail + 1) % s.cfg.offsCap
        qused := s.qused - footprint s.cfg p.durs.length }
      .ok (dataOf p.durs.length), ?_, ?_, ?_, ?_, ?_, hwf, hfits⟩
  · unfold popPacket
    simp only [hro, hrr, hrt, hcol, hfill]
  · rw [queueHolds_congr (s := u)]
    · exact hqu
    all_goals first | rfl | (rw [hueq]; rw [hveq]; rfl)
  · refine ⟨?_, ?_, ?_⟩
    · rw [hveq]; rfl
    · rw [hveq]; rfl
    · intro k hk
      have := hin k hk
      rw [Nat.zero_add] at this
      exact this
  · rw [hveq]; rfl
  · intro k hk
    exact hout k (by omega)

end Sys2Proof.Machine
end

