-- ==== Sys2Proof/Laws/Capture.lean ====
section
/-! SUPPORT. What each operation of the capture side can do, said once over the list of durations the
scratch window holds (`windowHolds`): append, the scan, emission, the boundary and the EDGE. -/

namespace Sys2Proof.Machine

/-! ### The window's indices -/

theorem windowHolds_congr {s t : State} (hc : t.cfg = s.cfg) (hscr : t.scr = s.scr)
    (hw : t.swp = s.swp) (hf : t.sfill = s.sfill) (ds : List Nat) :
    windowHolds t ds ↔ windowHolds s ds := by
  simp [windowHolds, scratchIndex, hc, hscr, hw, hf]

theorem scratchIndex_lt {s : State} (h : 0 < s.cfg.scrCap) (i : Nat) :
    scratchIndex s i < s.cfg.scrCap := subMod_lt _ _ h

/-- After one more append the newest entry is the slot just written. -/
theorem subMod_succ_one {a n : Nat} (h : a < n) : subMod ((a + 1) % n) 1 n = a := by
  by_cases hn : a + 1 < n
  · rw [Nat.mod_eq_of_lt hn, subMod_of_le (by omega) (by omega)]
    omega
  · have : a + 1 = n := by omega
    rw [this, Nat.mod_self, subMod_of_lt (by omega) (by omega)]
    omega

/-- After one more append every older entry is one place older. -/
theorem subMod_succ_shift {a i n : Nat} (h : a < n) (hi : 1 + i < n) :
    subMod ((a + 1) % n) (1 + (i + 1)) n = subMod a (1 + i) n := by
  rw [subMod_eq_mod (b := 1 + (i + 1)) (by omega), subMod_eq_mod (a := a) (by omega)]
  by_cases hn : a + 1 < n
  · rw [Nat.mod_eq_of_lt hn]
    congr 1
    omega
  · have : a + 1 = n := by omega
    rw [this, Nat.mod_self, show a = n - 1 by omega,
      show n - 1 + n - (1 + i) = (0 + n - (1 + (i + 1))) + n by omega, Nat.add_mod_right]

/-- Entries of a window are in different slots. -/
theorem subMod_one_add_ne {a i n : Nat} (h : a < n) (hi : 1 + i < n) : subMod a (1 + i) n ≠ a := by
  by_cases hle : 1 + i ≤ a
  · rw [subMod_of_le hle (by omega)]
    omega
  · rw [subMod_of_lt (by omega) (by omega)]
    omega

theorem subMod_add_left {a k b n : Nat} (h : k ≤ b) : subMod (a + k) b n = subMod a (b - k) n := by
  unfold subMod
  congr 2
  omega

/-! ### Append -/

/-- Append (R71): the window holds the duration and then what it held, at most `SCR_CAP` of it. -/
theorem append_spec {s : State} {ds : List Nat} (h : windowHolds s ds) (d : Nat)
    (hw : s.swp < s.cfg.scrCap) (hf : s.sfill ≤ s.cfg.scrCap) :
    ∃ t, append s d = .ok t ∧ windowHolds t (appended s.cfg d ds) ∧
      t = { s with
        scr := s.scr.write s.swp d
        swp := (s.swp + 1) % s.cfg.scrCap
        sfill := min (s.sfill + 1) s.cfg.scrCap } := by
  obtain ⟨hlen, hread⟩ := h
  have hwr : writeScr s s.swp d = .ok { s with scr := s.scr.write s.swp d } :=
    writeScr_eq_ok.2 ⟨hw, rfl⟩
  refine ⟨_, by unfold append; simp only [hwr], ⟨?_, ?_⟩, rfl⟩
  · show ((d :: ds).take s.cfg.scrCap).length = min (s.sfill + 1) s.cfg.scrCap
    rw [List.length_take, List.length_cons, hlen, Nat.min_comm]
  · intro i hi
    have hi' : i < min (s.sfill + 1) s.cfg.scrCap := hi
    show (s.scr.write s.swp d).read (subMod ((s.swp + 1) % s.cfg.scrCap) (1 + i) s.cfg.scrCap) =
      ((d :: ds).take s.cfg.scrCap)[i]?
    rw [List.getElem?_take_of_lt (by omega)]
    cases i with
    | zero => rw [Nat.add_zero, subMod_succ_one hw, Memory.read_write_same]; rfl
    | succ i =>
      rw [subMod_succ_shift hw (by omega),
        Memory.read_write_other _ _ (subMod_one_add_ne hw (by omega))]
      have := hread i (by omega)
      rw [scratchIndex] at this
      rw [this]
      rfl

/-! ### The scan -/

theorem scratchEntry_of_window {s : State} {ds : List Nat} (h : windowHolds s ds)
    (hc : 0 < s.cfg.scrCap) {i : Nat} (hi : i < ds.length) : scratchEntry s i = .ok ds[i] := by
  refine readScr_eq_ok.2 ⟨scratchIndex_lt hc i, ?_⟩
  rw [h.2 i (by rw [← h.1]; exact hi)]
  simp [hi]

theorem scanFrom_spec {s : State} {ds : List Nat} (h : windowHolds s ds) (hc : 0 < s.cfg.scrCap)
    (left i errs n : Nat) (hi : i + left = ds.length) :
    scanFrom s left i errs n = .ok (n + scanCount s.cfg errs (ds.drop i)) := by
  induction left generalizing i errs n with
  | zero =>
    rw [List.drop_eq_nil_of_le (by omega)]
    simp [scanFrom, scanCount]
  | succ left ih =>
    have hlt : i < ds.length := by omega
    rw [List.drop_eq_getElem_cons hlt]
    unfold scanFrom scanCount
    simp only [scratchEntry_of_window h hc hlt]
    split
    · rw [ih (i + 1) errs (n + 1) (by omega)]
      congr 1
      omega
    · split
      · simp
      · rw [ih (i + 1) (errs + 1) (n + 1) (by omega)]
        congr 1
        omega

/-- The scan (R74) counts the terminator and the entries `scanCount` takes from what is older. -/
theorem scan_spec {s : State} {d : Nat} {older : List Nat} (h : windowHolds s (d :: older))
    (hc : 0 < s.cfg.scrCap) : scan s = .ok (1 + scanCount s.cfg 1 older) := by
  unfold scan
  have hlen : s.sfill = older.length + 1 := by rw [← h.1]; rfl
  rw [scanFrom_spec h hc (s.sfill - 1) 1 1 1 (by rw [hlen]; simp; omega)]
  rfl

theorem scanCount_le (c : Config) (errs : Nat) (ds : List Nat) :
    scanCount c errs ds ≤ ds.length := by
  induction ds generalizing errs with
  | nil => simp [scanCount]
  | cons d ds ih =>
    unfold scanCount
    have h1 := ih errs
    have h2 := ih (errs + 1)
    split
    · simp; omega
    · split <;> simp
      omega

/-! ### Emission -/

/-- The `n` newest entries, oldest first (R77). -/
theorem newest_spec {s : State} {ds : List Nat} (h : windowHolds s ds) (hc : 0 < s.cfg.scrCap)
    {n : Nat} (hn : n ≤ ds.length) : newest s n = .ok (ds.take n).reverse := by
  refine collect_eq_ok.2 ⟨by simp [hn], fun i hi => ?_⟩
  have hlt : n - 1 - i < ds.length := by omega
  refine ⟨ds[n - 1 - i], ?_, readScr_eq_ok.2 ⟨subMod_lt _ _ hc, ?_⟩⟩
  · rw [List.getElem?_reverse (by simp; omega)]
    simp only [List.length_take, Nat.min_eq_left hn]
    rw [List.getElem?_take_of_lt (by omega)]
    simp [hlt]
  · rw [Nat.zero_add, subMod_add_left (by omega), show n - i = 1 + (n - 1 - i) by omega]
    have := h.2 (n - 1 - i) (by rw [← h.1]; exact hlt)
    rw [scratchIndex] at this
    rw [this]
    simp [hlt]

theorem normLast_append (c : Config) (l : List Nat) (x : Nat) :
    normLast c (l ++ [x]) = l ++ [norm c x] := by
  induction l with
  | nil => rfl
  | cons y l ih =>
    cases l with
    | nil => rfl
    | cons z l => simpa [normLast] using ih

/-- What emission pushes for a window `d :: older` is the emitted packet. -/
theorem normLast_newest (c : Config) (d m : Nat) (older : List Nat) :
    normLast c ((d :: older).take (1 + m)).reverse = (norm c d :: older.take m).reverse := by
  rw [Nat.add_comm, List.take_succ_cons, List.reverse_cons, normLast_append, List.reverse_cons]

theorem emittedPacket_durs (c : Config) (d : Nat) (older : List Nat) (tMs : Nat) :
    (emittedPacket c d older tMs).durs =
      (norm c d :: older.take (scanCount c 1 older)).reverse := rfl

theorem emittedPacket_length (c : Config) (d : Nat) (older : List Nat) (tMs : Nat) :
    (emittedPacket c d older tMs).durs.length = 1 + scanCount c 1 older := by
  have := scanCount_le c 1 older
  simp [emittedPacket_durs, Nat.min_eq_left this]
  omega

theorem norm_bounds {c : Config} {d : Nat} (h : c.termUs ≤ d) :
    c.termUs ≤ norm c d ∧ norm c d ≤ c.termUs + c.normMargin := by
  unfold norm
  split <;> omega

/-- A packet emitted from a session whose older entries lie below the threshold is as R30 item 5
says. -/
theorem emittedPacket_ok {c : Config} {d : Nat} {older : List Nat} {tMs : Nat}
    (ht : c.termUs ≤ d) (hold : ∀ x ∈ older, x < c.termUs) (hcap : older.length + 1 ≤ c.scrCap)
    (hmin : c.minPkt ≤ (emittedPacket c d older tMs).durs.length) :
    packetOk c (emittedPacket c d older tMs) := by
  have hlen := emittedPacket_length c d older tMs
  have hle := scanCount_le c 1 older
  refine ⟨hmin, by omega, ?_, ?_⟩
  · intro k hk x hx
    rw [emittedPacket_durs] at hx hk
    rw [List.reverse_cons] at hx hk
    rw [List.getElem?_append_left (by simpa using hk)] at hx
    have hmem := List.mem_of_getElem? hx
    exact hold x (List.mem_of_mem_take (List.mem_reverse.1 hmem))
  · intro x hx
    rw [emittedPacket_durs, List.getLast?_reverse] at hx
    have : x = norm c d := by simpa using hx.symm
    rw [this]
    exact norm_bounds ht

/-! ### The boundary and the EDGE -/

/-- Emission (R77) of a session whose window is `d :: older`: the emitted packet is pushed. -/
theorem emit_eq_push {s : State} {d : Nat} {older : List Nat} (h : windowHolds s (d :: older))
    (hc : 0 < s.cfg.scrCap) (tMs : Nat) :
    emit s (1 + scanCount s.cfg 1 older) tMs =
      push s (emittedPacket s.cfg d older tMs).ts (emittedPacket s.cfg d older tMs).durs := by
  have hle := scanCount_le s.cfg 1 older
  unfold emit
  rw [newest_spec h hc (by simp; omega)]
  simp only [normLast_newest]
  rfl

/-- The boundary (R72): the session ends, and its packet is discarded (R76) or pushed. -/
theorem boundary_eq {s : State} {d : Nat} {older : List Nat} (h : windowHolds s (d :: older))
    (hc : 0 < s.cfg.scrCap) (tMs : Nat) :
    boundary s tMs =
      if (emittedPacket s.cfg d older tMs).durs.length < s.cfg.minPkt then
        .ok { s with cst := .idle }
      else
        push { s with cst := .idle } (emittedPacket s.cfg d older tMs).ts
          (emittedPacket s.cfg d older tMs).durs := by
  have h' : windowHolds { s with cst := CaptureState.idle } (d :: older) := h
  unfold boundary
  rw [scan_spec h hc]
  simp only [emittedPacket_length]
  split
  · rfl
  · exact emit_eq_push h' hc tMs

/-- An EDGE while detached does nothing (R69). -/
theorem edge_detached {s : State} (h : s.en = false) (e : EdgeEvent) : edge e s = .ok s := by
  simp [edge, h]

/-- An EDGE in IDLE whose duration is not SHORT or LONG changes `LAST_US` alone (R70). -/
theorem edge_idle_ignored {s : State} {e : EdgeEvent} (hen : s.en = true) (hst : s.cst = .idle)
    (hd : classifyShortLong s.cfg (pulseDuration s.cfg (edgeUs s.cfg e) s.lastUs)
      (idleMode s.cfg) = .none) :
    edge e s = .ok { s with lastUs := edgeUs s.cfg e } := by
  simp [edge, edgeDuration, hen, hst, hd]

/-- An EDGE in IDLE with a SHORT or LONG duration starts a session with it (R70). -/
theorem edge_idle_trigger {s : State} {e : EdgeEvent} (hen : s.en = true) (hst : s.cst = .idle)
    (hd : classifyShortLong s.cfg (pulseDuration s.cfg (edgeUs s.cfg e) s.lastUs)
      (idleMode s.cfg) ≠ .none) :
    edge e s =
      append { s with
        lastUs := edgeUs s.cfg e, cst := .accumulating, swp := 0, sfill := 0 }
        (pulseDuration s.cfg (edgeUs s.cfg e) s.lastUs) := by
  simp [edge, edgeDuration, hen, hst, hd]

/-- An EDGE in ACCUMULATING appends its duration and, if it is a terminator, meets the boundary
(R71, R72). -/
theorem edge_accumulating {s t : State} {e : EdgeEvent} (hen : s.en = true)
    (hst : s.cst = .accumulating)
    (ha : append { s with lastUs := edgeUs s.cfg e }
      (pulseDuration s.cfg (edgeUs s.cfg e) s.lastUs) = .ok t) :
    edge e s =
      if isTerminator s.cfg (pulseDuration s.cfg (edgeUs s.cfg e) s.lastUs) then
        boundary t (edgeMs s.cfg e)
      else .ok t := by
  simp only [hen, hst] at ha
  simp [edge, edgeDuration, hen, hst, ha]

end Sys2Proof.Machine
end

