-- ==== Sys2Proof/Laws/Decode.lean ====
section
/-! SUPPORT. The fields of an encoded word (30_encoding.md rules R48 and R51): what the decoder reads back
from what the encoder writes. -/

namespace Sys2Proof

theorem bits_lt (w : Word) (hi lo : Nat) : bits w hi lo < 2 ^ (hi - lo + 1) :=
  Nat.mod_lt _ (Nat.two_pow_pos _)

theorem operandField_lt {i : Instr} (h : i.wf) : operandField i < 2 ^ 24 := by
  cases i with
  | getDur idx => simp only [Instr.wf] at h; simp only [operandField]; omega
  | classify fz dur =>
    simp only [Instr.wf] at h
    cases fz <;> simp only [operandField, toleranceBit] <;> omega
  | _ => decide

theorem opcode_le (i : Instr) : opcode i ≤ 8 := by cases i <;> simp [opcode]

theorem encode_toNat {i : Instr} (h : i.wf) :
    (encode i).toNat = opcode i * 2 ^ 24 + operandField i := by
  have h1 := operandField_lt h
  have h2 := opcode_le i
  unfold encode
  rw [BitVec.toNat_ofNat, Nat.mod_eq_of_lt (by omega)]

theorem bits_encode_op {i : Instr} (h : i.wf) : bits (encode i) 31 24 = opcode i := by
  have h1 := operandField_lt h
  have h2 := opcode_le i
  unfold bits
  rw [encode_toNat h]
  omega

theorem bits_encode_operand {i : Instr} (h : i.wf) : bits (encode i) 23 0 = operandField i := by
  have h1 := operandField_lt h
  have h2 := opcode_le i
  unfold bits
  rw [encode_toNat h]
  omega

/-- A word is its opcode field and its operand field. -/
theorem toNat_eq_bits (w : Word) : w.toNat = bits w 31 24 * 2 ^ 24 + bits w 23 0 := by
  have := w.isLt
  unfold bits
  omega

/-- Each format N opcode stands for one command, whose opcode it is and whose operand field is 0. -/
theorem formatNCommand_eq_some {op : Nat} {i : Instr} (h : formatNCommand op = some i) :
    opcode i = op ∧ operandField i = 0 ∧ i.wf := by
  unfold formatNCommand at h
  split at h <;> first | (cases h; exact ⟨rfl, rfl, trivial⟩) | cases h

end Sys2Proof
end

