-- ==== Sys2Proof/Laws/Frame.lean ====
section
/-! SUPPORT. What each operation changes, in every state: if it answers a next state, that state is the
one before with the fields named, and no others, changed. -/

namespace Sys2Proof.Machine

theorem evict_frame {s t : State} (h : evict s = .ok t) :
    t = { s with qused := t.qused, qtail := (s.qtail + 1) % s.cfg.offsCap } := by
  unfold evict at h
  split at h
  · cases h
  · split at h
    · cases h
    · cases h; rfl

theorem makeRoom_frame {f fuel : Nat} {s t : State} (h : makeRoom f fuel s = .ok t) :
    t = { s with qused := t.qused, qtail := t.qtail } := by
  induction fuel generalizing s with
  | zero =>
    unfold makeRoom at h
    split at h
    · cases h
    · cases h; rfl
  | succ fuel ih =>
    unfold makeRoom at h
    split at h
    · split at h
      · cases h
      · next u hu =>
        have h1 := evict_frame hu
        have h2 := ih h
        rw [h1] at h2
        exact h2
    · cases h; rfl

theorem fillRing_frame {start k : Nat} {vs : List Nat} {s t : State}
    (h : fillRing start k vs s = .ok t) : t = { s with ring := t.ring } := by
  induction vs generalizing k s with
  | nil => cases h; rfl
  | cons v vs ih =>
    unfold fillRing at h
    split at h
    · cases h
    · next u hu =>
      have h2 := ih h
      rw [(writeRing_eq_ok.1 hu).2] at h2
      exact h2

theorem appendPacket_frame {s t : State} {ts : Nat} {p : List Nat}
    (h : appendPacket s ts p = .ok t) :
    t = { s with
      ring := t.ring
      offs := s.offs.write s.qhead s.qwp
      qwp := (s.qwp + footprint s.cfg p.length) % s.cfg.ringCap
      qused := s.qused + footprint s.cfg p.length
      qhead := (s.qhead + 1) % s.cfg.offsCap } := by
  unfold appendPacket at h
  split at h
  · cases h
  · next s1 h1 =>
    split at h
    · cases h
    · next s2 h2 =>
      split at h
      · cases h
      · next s3 h3 =>
        split at h
        · cases h
        · next s4 h4 =>
          have e1 := (writeOffs_eq_ok.1 h1).2
          have e2 := (writeRing_eq_ok.1 h2).2
          have e3 := (writeRing_eq_ok.1 h3).2
          have e4 := fillRing_frame h4
          rw [e3, e2, e1] at e4
          cases h
          rw [e4]

theorem push_frame {s t : State} {ts : Nat} {p : List Nat} (h : push s ts p = .ok t) :
    t = { s with
      ring := t.ring
      offs := s.offs.write s.qhead s.qwp
      qwp := (s.qwp + footprint s.cfg p.length) % s.cfg.ringCap
      qused := t.qused
      qhead := (s.qhead + 1) % s.cfg.offsCap
      qtail := t.qtail } := by
  unfold push at h
  split at h
  · cases h
  · next u hu =>
    have h1 := makeRoom_frame hu
    have h2 := appendPacket_frame h
    rw [h1] at h2
    rw [h2]

theorem fillOut_frame {k : Nat} {vs : List Nat} {s t : State} (h : fillOut k vs s = .ok t) :
    t = { s with outDur := t.outDur } := by
  induction vs generalizing k s with
  | nil => cases h; rfl
  | cons v vs ih =>
    unfold fillOut at h
    split at h
    · cases h
    · next u hu =>
      have h2 := ih h
      rw [(writeOutDur_eq_ok.1 hu).2] at h2
      exact h2

theorem popPacket_frame {s t : State} (h : popPacket s = .ok t) :
    t = { s with
      outValid := true
      outLen := t.outLen
      outTs := t.outTs
      outDur := t.outDur
      qtail := (s.qtail + 1) % s.cfg.offsCap
      qused := s.qused - footprint s.cfg t.outLen
      responses := s.responses ++ [⟨.ok, dataOf t.outLen⟩] } := by
  unfold popPacket at h
  split at h
  · cases h
  · split at h
    · cases h
    · split at h
      · cases h
      · split at h
        · cases h
        · split at h
          · cases h
          · next u hu =>
            have hf := fillOut_frame hu
            cases h
            rw [hf]
            rfl

theorem append_frame {s t : State} {d : Nat} (h : append s d = .ok t) :
    s.swp < s.cfg.scrCap ∧
      t = { s with
        scr := s.scr.write s.swp d
        swp := (s.swp + 1) % s.cfg.scrCap
        sfill := min (s.sfill + 1) s.cfg.scrCap } := by
  unfold append at h
  split at h
  · cases h
  · next u hu =>
    obtain ⟨hlt, rfl⟩ := writeScr_eq_ok.1 hu
    cases h
    exact ⟨hlt, rfl⟩

theorem append_eq_ok {s : State} (d : Nat) (h : s.swp < s.cfg.scrCap) :
    append s d = .ok { s with
      scr := s.scr.write s.swp d
      swp := (s.swp + 1) % s.cfg.scrCap
      sfill := min (s.sfill + 1) s.cfg.scrCap } := by
  unfold append
  rw [show writeScr s s.swp d = .ok { s with scr := s.scr.write s.swp d } from
    writeScr_eq_ok.2 ⟨h, rfl⟩]

/-- The boundary ends the session and changes the queue alone besides. -/
theorem boundary_frame {s t : State} {tMs : Nat} (h : boundary s tMs = .ok t) :
    t = { s with
      cst := .idle
      ring := t.ring, offs := t.offs, qhead := t.qhead, qtail := t.qtail
      qused := t.qused, qwp := t.qwp } := by
  unfold boundary at h
  split at h
  · cases h
  · split at h
    · cases h; rfl
    · unfold emit at h
      split at h
      · cases h
      · have h1 := push_frame h
        rw [h1]

/-- An EDGE changes the capture side and the queue alone: no control flag, nothing of the output buffer,
nothing at the ports. -/
theorem edge_frame {s t : State} {e : EdgeEvent} (h : edge e s = .ok t) :
    t = { s with
      cst := t.cst, lastUs := t.lastUs, scr := t.scr, swp := t.swp, sfill := t.sfill
      ring := t.ring, offs := t.offs, qhead := t.qhead, qtail := t.qtail
      qused := t.qused, qwp := t.qwp } := by
  unfold edge at h
  split at h
  · unfold edgeDuration at h
    split at h
    · split at h
      · cases h; rfl
      · rw [(append_frame h).2]
    · split at h
      · cases h
      · next u hu =>
        have h1 := (append_frame hu).2
        split at h
        · have h2 := boundary_frame h
          rw [h1] at h2
          rw [h2]
        · cases h; rw [h1]
  · cases h; rfl

end Sys2Proof.Machine
end

