-- ==== Sys2Proof/Laws/Transact.lean ====
section
/-! SUPPORT. What a transaction leaves alone, said once: what stands at the ports, the configuration, and
for every command but POP all of the block but the two capture flags. Before it the fields of a word written
as an opcode and an operand field; after it what presenting a list of transactions does to a state. -/

namespace Sys2Proof

/-! ### The fields of a word `op ++ low` -/

theorem toNat_opcode_append (op : BitVec 8) (low : BitVec 24) :
    (op ++ low : BitVec 32).toNat = op.toNat * 2 ^ 24 + low.toNat := by
  rw [BitVec.toNat_append, ← Nat.shiftLeft_add_eq_or_of_lt low.isLt, Nat.shiftLeft_eq]

theorem bits_opcode_append (op : BitVec 8) (low : BitVec 24) :
    bits (op ++ low) 31 24 = op.toNat := by
  have := op.isLt; have := low.isLt
  unfold bits; rw [toNat_opcode_append]; omega

theorem bits_operand_append (op : BitVec 8) (low : BitVec 24) :
    bits (op ++ low) 23 0 = low.toNat := by
  have := op.isLt; have := low.isLt
  unfold bits; rw [toNat_opcode_append]; omega

theorem bits_index_high_append (op : BitVec 8) (low : BitVec 24) :
    bits (op ++ low) 23 16 = (low.extractLsb' 16 8).toNat := by
  have := op.isLt; have := low.isLt
  unfold bits; rw [toNat_opcode_append, BitVec.extractLsb'_toNat, Nat.shiftRight_eq_div_pow]; omega

namespace Machine

/-! ### What a transaction leaves alone -/

/-- No transaction touches the configuration, the pending inputs or the arbitration. -/
theorem transact_ports {tr : Transaction} {s t : State} (h : transact tr s = .next t) :
    t.cfg = s.cfg ∧ t.edges = s.edges ∧ t.cmds = s.cmds ∧ t.resets = s.resets ∧
      t.turns = s.turns ∧ t.draws = s.draws := by
  cases tr with
  | edge e =>
    have := edge_frame (finish_eq_next.1 h)
    rw [this]; simp
  | reset => cases h; simp [resetBlock]
  | cmd w =>
    simp only [transact, runCommand] at h
    split at h
    · next i hi =>
      cases i <;>
        simp only [exec, execNop, execStart, execStop, execPop, execGetTs, execGetLen, execGetDur,
          execClassify, execStatus] at h
      case pop =>
        split at h
        · cases h; simp [popEmpty, respond]
        · have := popPacket_frame (finish_eq_next.1 h)
          rw [this]; simp
      all_goals (try split at h) <;> (try split at h) <;> cases h <;> simp [respond]
    · cases h; simp [respondIllegal, respond]

/-- The configuration alone makes a step refuse; a transaction never does. -/
theorem transact_not_refused {tr : Transaction} {s : State} {r : Refusal} :
    transact tr s ≠ .refused r := by
  cases tr with
  | edge e => exact finish_ne_refused
  | reset => simp [transact, runReset]
  | cmd w =>
    simp only [transact, runCommand]
    split
    · next i hi =>
      cases i <;>
        simp only [exec, execNop, execStart, execStop, execPop, execGetTs, execGetLen, execGetDur,
          execClassify, execStatus]
      case pop => split <;> simp [finish_ne_refused]
      all_goals (try split) <;> (try split) <;> simp
    · simp

/-- Every word but POP's changes `EN`, `CST` and the responses at most. -/
theorem transact_frame_cmd {w : Word} {s t : State} (h : transact (.cmd w) s = .next t)
    (hp : decode w ≠ .ok .pop) :
    t = { s with en := t.en, cst := t.cst, responses := t.responses } := by
  simp only [transact, runCommand] at h
  split at h
  · next i hi =>
    cases i <;>
      simp only [exec, execNop, execStart, execStop, execPop, execGetTs, execGetLen, execGetDur,
        execClassify, execStatus] at h
    case pop => exact absurd hi hp
    all_goals (try split at h) <;> (try split at h) <;> cases h <;> rfl
  · cases h; rfl

/-! ### The status and the class word as sums of their fields -/

theorem statusFields_eq (a : BitVec 16) (b : BitVec 8) (v n c e : Bool) :
    (a ++ b ++ 0#4 ++ BitVec.ofBool v ++ BitVec.ofBool n ++ BitVec.ofBool c ++ BitVec.ofBool e :
      BitVec 32) =
    BitVec.ofNat 32 (a.toNat * 2 ^ 16 + b.toNat * 2 ^ 8 + (if v then 8 else 0) + (if n then 4 else 0) +
      (if c then 2 else 0) + (if e then 1 else 0)) := by
  have := a.isLt; have := b.isLt
  apply BitVec.eq_of_toNat_eq
  have k : ∀ {m n : Nat} (x : BitVec m) (y : BitVec n),
      (x ++ y).toNat = x.toNat * 2^n + y.toNat := by
    intro m n x y
    rw [BitVec.toNat_append, ← Nat.shiftLeft_add_eq_or_of_lt y.isLt, Nat.shiftLeft_eq]
  simp only [k, BitVec.toNat_ofNat, BitVec.toNat_ofBool]
  cases v <;> cases n <;> cases c <;> cases e <;> simp <;> omega

theorem classFields_eq (a b : Bool) (c : BitVec 2) :
    ((BitVec.ofBool a ++ BitVec.ofBool b ++ c : BitVec 4).setWidth 32 : BitVec 32) =
    BitVec.ofNat 32 ((if a then 8 else 0) + (if b then 4 else 0) + c.toNat) := by
  revert a b c; decide

/-! ### Presenting transactions -/

theorem presentAll_cons (s : State) (tr : Transaction) (trs : List Transaction) :
    presentAll s (tr :: trs) = presentAll (present s tr) trs := rfl

/-- Each input's stream and the turns are lengthened by the list's own; nothing else changes. -/
theorem presentAll_eq (s : State) (trs : List Transaction) :
    presentAll s trs = { s with
      edges := s.edges ++ trs.filterMap (fun | .edge e => some e | _ => none)
      cmds := s.cmds ++ trs.filterMap (fun | .cmd e => some e | _ => none)
      resets := s.resets + trs.countP (fun | .reset => true | _ => false)
      turns := s.turns ++ trs.map Transaction.source } := by
  induction trs generalizing s with
  | nil => simp [presentAll]
  | cons tr trs ih =>
    rw [presentAll_cons, ih]
    cases tr <;> (simp [present, Transaction.source]; try omega)

end Machine
end Sys2Proof
end

