-- ==== Sys2Proof/Laws/Invariant.lean ====
section
/-! SUPPORT. The parts of the invariant of rule R30 (Safety.lean), each carried over to a state that differs
in other fields only, and the lists that the window and the queue hold taken out of it. -/

namespace Sys2Proof.Machine

/-! ### The window -/

theorem appended_cons {c : Config} (h : 0 < c.scrCap) (d : Nat) (ds : List Nat) :
    appended c d ds = d :: (appended c d ds).tail := by
  unfold appended
  obtain ⟨n, hn⟩ : ∃ n, c.scrCap = n + 1 := ⟨c.scrCap - 1, by omega⟩
  rw [hn]; simp

/-- A readable window holds some list of durations. -/
theorem exists_windowHolds {s : State}
    (h : ∀ i, i < s.sfill → (s.scr.read (scratchIndex s i)).isSome) : ∃ ds, windowHolds s ds := by
  refine ⟨(List.range s.sfill).map (fun i => (s.scr.read (scratchIndex s i)).getD 0), by simp,
    fun i hi => ?_⟩
  have := h i hi
  rw [List.getElem?_map, List.getElem?_range hi]
  obtain ⟨v, hv⟩ := Option.isSome_iff_exists.1 this
  simp [hv]

theorem isSome_of_windowHolds {s : State} {ds : List Nat} (h : windowHolds s ds) :
    ∀ i, i < s.sfill → (s.scr.read (scratchIndex s i)).isSome := by
  intro i hi
  rw [h.2 i hi]; simp [h.1, hi]

/-- What every entry of the window meets, every duration of its list meets. -/
theorem forall_window_iff {s : State} {ds : List Nat} (h : windowHolds s ds) {P : Nat → Prop} :
    (∀ i, i < s.sfill → ∀ d ∈ s.scr.read (scratchIndex s i), P d) ↔ ∀ d ∈ ds, P d := by
  constructor
  · intro h1 d hd
    obtain ⟨i, hi⟩ := List.mem_iff_getElem?.1 hd
    have hlt : i < s.sfill := by rw [← h.1]; exact (List.getElem?_eq_some_iff.1 hi).1
    exact h1 i hlt d (by rw [h.2 i hlt, hi]; rfl)
  · intro h1 i hi d hd
    rw [h.2 i hi] at hd
    exact h1 d (List.mem_of_getElem? hd)

/-- The scan over a list (R74): it keeps fewer invalid entries than its budget, and stops only at an
invalid entry met with the budget spent. -/
theorem scanCount_budget (c : Config) (older : List Nat) (errs : Nat) (h : errs ≤ c.errLimit) :
    let m := scanCount c errs older
    (older.take m).countP (fun x => !validStrict c x) ≤ c.errLimit - errs ∧
      (m < older.length →
        (older.take m).countP (fun x => !validStrict c x) = c.errLimit - errs ∧
        ∃ x, older[m]? = some x ∧ validStrict c x = false) := by
  induction older generalizing errs with
  | nil => simp [scanCount]
  | cons d ds ih =>
    unfold scanCount
    split
    · next hv =>
      have := ih errs h
      rw [Nat.add_comm 1]
      simpa [hv] using this
    · next hv =>
      split
      · next he =>
        simp [he, hv]
      · next he =>
        have := ih (errs + 1) (by omega)
        rw [Nat.add_comm 1]
        simp only [List.take_succ_cons, List.countP_cons, List.length_cons, List.getElem?_cons_succ]
        have hv' : validStrict c d = false := by simpa using hv
        simp only [hv']
        constructor
        · simp; omega
        · intro hlt
          have := this.2 (by omega)
          refine ⟨by simp; omega, this.2⟩

/-! ### The queue -/

/-- The queue's contents, in a state that differs elsewhere. -/
theorem queueHolds_transport {s t : State} {ps : List Packet} (h : queueHolds s ps)
    (hr : t.ring = s.ring) (ho : t.offs = s.offs)
    (hc : t.cfg = s.cfg) (hh : t.qhead = s.qhead) (ht : t.qtail = s.qtail) (hu : t.qused = s.qused)
    (hw : t.qwp = s.qwp) : queueHolds t ps := (queueHolds_congr hr ho hc hh ht hu hw ps).2 h

theorem queueOk_congr {s t : State} (hr : t.ring = s.ring) (ho : t.offs = s.offs)
    (hc : t.cfg = s.cfg) (hh : t.qhead = s.qhead) (ht : t.qtail = s.qtail) (hu : t.qused = s.qused)
    (hw : t.qwp = s.qwp) (h : queueOk s) : queueOk t := by
  obtain ⟨h1, h2, ps, hq, hok⟩ := h
  exact ⟨by unfold qcount; rw [hh, ht, hc]; exact h1,
    by unfold qcount; rw [hh, ht, hc, hu]; exact h2,
    ps, (queueHolds_congr hr ho hc hh ht hu hw ps).2 hq, by rw [hc]; exact hok⟩

/-- The queue's part of the invariant, from its contents. -/
theorem queueOk_of_queueHolds {s : State} {ps : List Packet} (hc : s.cfg.coherent)
    (hq : queueHolds s ps) (hok : ∀ p ∈ ps, packetOk s.cfg p) : queueOk s := by
  obtain ⟨a, ha, la, na, ua, -⟩ := id hq
  have : qcount s < s.cfg.offsCap := subMod_lt _ _ (by omega)
  refine ⟨by omega, ?_, ps, hq, hok⟩
  rw [← na, ua]
  cases ps with
  | nil => simp
  | cons p ps => simp [Packet.slots_eq]; omega

/-- Every duration of a packet as R30 item 5 says is at most `TERM_US + NORM_MARGIN`. -/
theorem packetOk_le {c : Config} {p : Packet} (h : packetOk c p) :
    ∀ v ∈ p.durs, v ≤ c.termUs + c.normMargin := by
  intro v hv
  obtain ⟨k, hk⟩ := List.mem_iff_getElem?.1 hv
  have hlt : k < p.durs.length := (List.getElem?_eq_some_iff.1 hk).1
  by_cases hl : k + 1 < p.durs.length
  · have := h.2.2.1 k hl v hk; omega
  · have : p.durs.getLast? = some v := by
      rw [List.getLast?_eq_getElem?, ← hk]; congr 1; omega
    exact (h.2.2.2 v this).2

/-! ### The ports -/

/-- The invariant says nothing of the ports: what stands there may change freely. -/
theorem inv_of_ports {s t : State} (hI : Inv s)
    (h : t = { s with
      edges := t.edges, cmds := t.cmds, resets := t.resets, turns := t.turns, draws := t.draws
      responses := t.responses }) : Inv t := by
  rw [h]
  exact ⟨hI.coherent, hI.inRange, hI.canonical, hI.scratch, hI.session,
    queueOk_congr (s := s) rfl rfl rfl rfl rfl rfl rfl hI.queue, hI.output⟩

end Sys2Proof.Machine
end

