-- ==== Sys2Proof/Laws/PerInstr.lean ====
section
/-! SUPPORT. A law of every command, one lemma per constructor: its word has the fixed bits of the
command's row of spec/opcode_table.json. -/

namespace Sys2Proof.Laws.TableRow

/-- The "fixed" entry of each command's row of spec/opcode_table.json: bits 31 down to `lo` read as
`value`. -/
def fixedBits : Instr → Nat × Nat
  | .nop => (0, 0)
  | .start => (0, 16777216)
  | .stop => (0, 33554432)
  | .pop => (0, 50331648)
  | .getTs => (0, 67108864)
  | .getLen => (0, 83886080)
  | .getDur _ => (16, 1536)
  | .classify _ _ => (24, 7)
  | .status => (0, 134217728)

/-- The word of a well-formed command has its row's fixed bits. -/
def Statement (i : Instr) : Prop := i.wf → bits (encode i) 31 (fixedBits i).1 = (fixedBits i).2

theorem nop : Statement .nop := fun _ => by decide
theorem start : Statement .start := fun _ => by decide
theorem stop : Statement .stop := fun _ => by decide
theorem pop : Statement .pop := fun _ => by decide
theorem getTs : Statement .getTs := fun _ => by decide
theorem getLen : Statement .getLen := fun _ => by decide
theorem status : Statement .status := fun _ => by decide

theorem getDur (idx : Nat) : Statement (.getDur idx) := by
  intro h
  have hw := encode_toNat h
  simp only [Instr.wf] at h
  simp only [bits, fixedBits, hw, opcode, operandField]
  omega

theorem classify (fz : Tolerance) (dur : Nat) : Statement (.classify fz dur) := fun h =>
  bits_encode_op h

end Sys2Proof.Laws.TableRow
end

