-- ==== Sys2Proof/Tests/Slice0.lean ====
section
/-! SUPPORT. The tests of this package, each about one word, one check or one step, with its source beside
it; and for every statement with hypotheses a witness: a concrete state and operands that meet them. -/

namespace Sys2Proof.Tests

open Sys2Proof.Machine

/-! ### Small states -/

/-- A block with every parameter at its default but for small arrays. -/
def tiny : Config := { Config.reference with
  scrCap := 4, minPkt := 2, errLimit := 2, ringCap := 8, offsCap := 3 }

/-- `reset_state` with `v = 0` (R112) in a given configuration. -/
def freshIn (c : Config) : State := { State.reset with cfg := c, lastUs := 0 }

def fresh : State := freshIn tiny

/-- `quiet_start` of 95_test_vectors.md, after its first edge, in the reference configuration. -/
def launched : State := { freshIn Config.reference with en := true, lastUs := 10000 }

/-- A session of one duration, 550. -/
def accum : State := { fresh with
  en := true, cst := .accumulating, lastUs := 550, scr := [(0, 550)], swp := 1, sfill := 1 }

def packetA : Packet := ⟨6, [550, 5500]⟩

def packetB : Packet := ⟨12, [1400, 5000]⟩

/-- One packet queued. -/
def queued : State := { fresh with
  en := true, lastUs := 6050, scr := [(0, 550), (1, 5500)], swp := 2, sfill := 2
  ring := [(0, 2), (1, 6), (2, 550), (3, 5500)], offs := [(0, 0)], qhead := 1, qused := 4, qwp := 4 }

/-- Two packets queued: the duration ring and the offset ring are full. -/
def full : State := { queued with
  ring := [(0, 2), (1, 6), (2, 550), (3, 5500), (4, 2), (5, 12), (6, 1400), (7, 5000)]
  offs := [(0, 0), (1, 4)], qhead := 2, qused := 8, qwp := 0 }

/-- One packet queued and a session of one duration. -/
def busy : State := { queued with cst := .accumulating, lastUs := 6600, swp := 1, sfill := 1 }

/-- The packet popped. -/
def popped : State := { queued with
  qtail := 1, qused := 0, outValid := true, outLen := 2, outTs := some 6
  outDur := [(0, 550), (1, 5500)] }

/-- A session `550, 3000, 3000, 5500` whose scan meets the error budget. -/
def noisy : State := { accum with
  scr := [(0, 550), (1, 3000), (2, 3000), (3, 5500)], swp := 0, sfill := 4 }

/-- A transaction pending at every input. -/
def allPending : State := { fresh with edges := [⟨550, 0⟩], cmds := [0x01000000], resets := 1 }

/-- A view of the state an outcome gives, if it gives one. -/
def view {α : Type} (o : Host.Outcome State Fault Refusal) (f : State → α) : Option α :=
  match o with
  | .next t => some (f t)
  | _ => none

/-- The last response given. -/
def answer (s : State) : Option Response := s.responses.getLast?

/-! ### Smoke tests of the checks: one ill-formed term for each -/

theorem test_wf_idx : Instr.isWf (.getDur 65536) = false ∧ Instr.isWf (.getDur 65535) = true := by
  decide

theorem test_wf_dur : Instr.isWf (.classify .fuzzy 8388608) = false ∧
    Instr.isWf (.classify .fuzzy 8388607) = true := by decide

theorem test_wf_edge : ¬ (EdgeEvent.mk (2 ^ 32) 0).wf Config.reference ∧
    ¬ (EdgeEvent.mk 0 (2 ^ 32)).wf Config.reference := by decide

theorem test_wf_script :
    ScriptLine.isWf Config.reference (.command (.getDur 65536)) = false ∧
    ScriptLine.isWf Config.reference (.edge ⟨2 ^ 32, 0⟩) = false ∧
    ScriptLine.isWf Config.reference (.clsStrict 8388608) = false ∧
    ScriptLine.isWf Config.reference (.clsFuzzy 8388608) = false := by decide

/-- Decides the admission of a configuration. -/
def admits (c : Config) : Bool := decide c.wf

/-- R10: a configuration that breaks one of the seven items is not admitted; each end of a range. -/
theorem test_wf_config :
    [Config.reference, tiny].map admits = [true, true] ∧
    admits { Config.reference with ringCap := 121 } = false ∧
    admits { Config.reference with ringCap := 65536 } = false ∧
    admits { Config.reference with offsCap := 1 } = false ∧
    admits { Config.reference with offsCap := 257 } = false ∧
    admits { Config.reference with slotW := 15 } = false ∧
    admits { Config.reference with slotW := 33 } = false ∧
    admits { Config.reference with clkW := 12 } = false ∧
    admits { Config.reference with minPkt := 1 } = false ∧
    admits { Config.reference with scrCap := 63 } = false ∧
    admits { Config.reference with errLimit := 0 } = false ∧
    admits { Config.reference with fixedTermHi := 5000 } = false ∧
    admits { Config.reference with fixedUs := 4790 } = false ∧
    admits { Config.reference with longUs := 4790 } = false ∧
    admits { Config.reference with tolFuzzySl := 3600 } = false ∧
    admits { Config.reference with shortUs := 210 } = false := by decide

theorem test_reset_refused_config :
    step { State.reset with cfg := { Config.reference with ringCap := 121 } } =
      .refused .configNotAdmitted := by rfl

/-! ### Decoding: words written out from the formats of R48 and the map of R51 -/

theorem test_decode_nop : decode 0b00000000000000000000000000000000#32 = .ok .nop := by decide
theorem test_decode_start : decode 0b00000001000000000000000000000000#32 = .ok .start := by decide
theorem test_decode_stop : decode 0b00000010000000000000000000000000#32 = .ok .stop := by decide
theorem test_decode_pop : decode 0b00000011000000000000000000000000#32 = .ok .pop := by decide
theorem test_decode_getTs : decode 0b00000100000000000000000000000000#32 = .ok .getTs := by decide
theorem test_decode_getLen : decode 0b00000101000000000000000000000000#32 = .ok .getLen := by decide
theorem test_decode_getDur :
    decode 0b00000110000000001000000000000001#32 = .ok (.getDur 32769) := by decide
theorem test_decode_classify :
    decode 0b00000111110000000000000000000001#32 = .ok (.classify .fuzzy 4194305) ∧
    decode 0b00000111010000000000000000000001#32 = .ok (.classify .strict 4194305) := by decide
theorem test_decode_status : decode 0b00001000000000000000000000000000#32 = .ok .status := by decide

/-- Vectors E2 to E6, E9 and E10 of 95_test_vectors.md. -/
theorem test_decode_illegal :
    decode 0x00000001#32 = .error .operandNotZero ∧ decode 0x09000000#32 = .error .unassignedOpcode ∧
    decode 0xFF000000#32 = .error .unassignedOpcode ∧
    decode 0x03000001#32 = .error .operandNotZero ∧
    decode 0x06010000#32 = .error .indexHighBitsNotZero ∧
    decode 0x08000001#32 = .error .operandNotZero ∧
    decode 0x01800000#32 = .error .operandNotZero := by decide

/-- The table's numbering is the word's own; a shorter row has its upper bits 0; a longer one is none. -/
theorem test_decodeTableWord :
    decodeTableWord 32 0x0600003F = some (.getDur 63) ∧ decodeTableWord 32 0x09000000 = none ∧
    decodeTableWord 24 0x00000000 = some .nop ∧ decodeTableWord 40 0 = none := by decide

/-! ### The commands, one step each -/

/-- S7; E2. -/
theorem test_nop : view (step (fresh.withFetchWord 32 0x00000000)) answer = some (some ⟨.ok, 0⟩) ∧
    view (step (fresh.withFetchWord 32 0x00000001)) answer = some (some ⟨.illegal, 0⟩) := by decide

/-- R81's example, at reset state; K14. -/
theorem test_start : view (step (State.reset.withFetchWord 32 0x01000000)) State.en = some true ∧
    view (exec .start accum) State.cst = some .accumulating := by decide

/-- K11: the session is abandoned, its window is not cleared. -/
theorem test_stop : view (exec .stop accum) (fun t => (t.en, t.cst, t.sfill)) =
    some (false, .idle, 1) := by decide

/-- R88: the packet is copied, the tail and the accounting move. -/
theorem test_pop : view (exec .pop full)
    (fun t => (t.outDur, t.outTs, t.qtail, t.qused, answer t)) =
      some ([(0, 550), (1, 5500)], some 6, 1, 4, some ⟨.ok, 2⟩) := by decide

/-- Q1 and Q8. -/
theorem test_pop_empty : view (exec .pop fresh) answer = some (some ⟨.empty, 0⟩) ∧
    view (exec .pop popped) State.outValid = some false := by decide

theorem test_getTs : view (exec .getTs popped) answer = some (some ⟨.ok, 6⟩) ∧
    view (exec .getTs queued) answer = some (some ⟨.empty, 0⟩) := by decide

theorem test_getLen : view (exec .getLen popped) answer = some (some ⟨.ok, 2⟩) ∧
    view (exec .getLen queued) answer = some (some ⟨.empty, 0⟩) := by decide

/-- Q4's pattern: the last element reads as `TERM_US` although 5500 is stored; E7 and E8. -/
theorem test_getDur : view (exec (.getDur 0) popped) answer = some (some ⟨.ok, 550⟩) ∧
    view (exec (.getDur 1) popped) answer = some (some ⟨.ok, 5000⟩) ∧
    view (exec (.getDur 2) popped) answer = some (some ⟨.range, 0⟩) ∧
    view (exec (.getDur 500) fresh) answer = some (some ⟨.empty, 0⟩) := by decide

/-- Rows of the classifier table of 95_test_vectors.md, strict: every window end. -/
theorem test_classify_strict :
    [0, 339, 340, 760, 761, 764, 765, 1185, 1186, 1189, 1190, 1610, 1611, 4999, 5000, 5999, 6000,
      8388607].map (classifyData Config.reference .strict) =
    [0, 0, 1, 1, 0, 0, 4, 4, 0, 0, 2, 2, 0, 0, 0xC, 0xC, 8, 8] := by decide

/-- The same, fuzzy. -/
theorem test_classify_fuzzy :
    [0, 49, 50, 474, 475, 899, 900, 1050, 1051, 1475, 1476, 1900, 1901, 5000, 6000].map
      (classifyData Config.reference .fuzzy) =
    [0, 0, 1, 1, 5, 5, 5, 5, 6, 6, 2, 2, 0, 0xC, 8] := by decide

/-- S1, S3 and S6 (its fields). -/
theorem test_status : statusWord State.reset = 0 ∧ statusWord accum = 3 ∧
    statusWord { launched with qhead := 5, qtail := 3, qused := 132, outValid := true } =
      0x0084020D := by decide

/-- The head has wrapped and the tail has not: `(QHEAD - QTAIL) mod OFFS_CAP` (R24). -/
theorem test_status_count_wraps :
    statusWord { launched with qhead := 1, qtail := 6, qused := 198 } = 0x00C60305 := by decide

/-! ### Edges -/

/-- K1, the example of R67. -/
theorem test_edge_starts_session : view (transact (.edge ⟨10550, 10⟩) launched)
    (fun t => (t.cst, t.scr, t.swp, t.sfill, t.lastUs)) =
      some (.accumulating, [(0, 550)], 1, 1, 10550) := by decide

/-- K3: the microsecond clock wraps between the two edges. -/
theorem test_edge_clock_wraps : view
    (transact (.edge ⟨0x00000126, 0⟩) { launched with lastUs := 0xFFFFFF00 })
    (fun t => (t.cst, t.scr, t.lastUs)) = some (.accumulating, [(0, 550)], 0x126) := by decide

/-- K2's first edge: FIXED only, ignored in IDLE. -/
theorem test_edge_fixed_ignored : view (transact (.edge ⟨10975, 10⟩) launched)
    (fun t => (t.cst, t.scr, t.lastUs)) = some (.idle, [], 10975) := by decide

/-- R74, R77: the scanned entries, the tolerated invalid one among them, are pushed oldest first. -/
theorem test_edge_emits : view
    (transact (.edge ⟨6550, 6⟩) { noisy with scr := [(0, 550), (1, 3000)], swp := 2, sfill := 2 })
    (fun t => (t.cst, t.ring, t.offs, t.qused, t.qwp)) =
      some (.idle, [(0, 3), (1, 6), (2, 550), (3, 3000), (4, 6000)], [(0, 0)], 5, 5) := by decide

/-- R71, R78: the full window overwrites its oldest entry; 6001 is stored as `TERM_US`; the error budget
of 2 stops the scan before the second 3000 (R74), and the pair that is left is a packet. -/
theorem test_edge_budget_and_norm : view
    (transact (.edge ⟨6551, 7⟩)
      { noisy with scr := [(0, 550), (1, 3000), (2, 3000), (3, 3000)], swp := 0, sfill := 4 })
    (fun t => (t.scr, t.swp, t.ring)) =
      some ([(0, 6001), (1, 3000), (2, 3000), (3, 3000)], 1,
        [(0, 2), (1, 7), (2, 3000), (3, 5000)]) := by decide

/-- R83 to R86: no room, the oldest goes, and the new packet wraps round the ring. -/
theorem test_push_evicts : (push full 20 [550, 5000]).toOption.map
    (fun t => (t.qhead, t.qtail, t.qused, t.qwp)) = some (0, 1, 8, 4) := by decide

/-- R85: the ring has room, the offset ring is full (vector Q7's pattern). -/
theorem test_push_offset_full :
    (push { queued with cfg := { tiny with ringCap := 100, offsCap := 2 } } 20 [550, 5000]).toOption.map
      (fun t => (t.qhead, t.qtail, t.qused, t.offs)) = some (0, 1, 4, [(0, 0), (1, 4)]) := by decide

/-- R109: a RESET that comes while the block is busy. -/
theorem test_reset : view (transact .reset busy)
    (fun t => (t.en, t.cst, t.scr, t.qhead, t.qused)) = some (false, .idle, [], 0, 0) := by decide

/-! ### Scripts -/

/-- R55, R56: a comment, a pseudo form, the time base; the line is refused with an operand out of range
or another spelling. -/
theorem test_script :
    transcribe Config.reference ["RESET".toList, "; a comment".toList, ".T0 0".toList,
      "PULSE 10000 ; EDGE 10000, 10".toList, "CLS.F 975".toList, "GET_DUR 0x3F".toList,
      ".WORD 0x09000000".toList] =
      some [.reset, .edge ⟨10000, 10⟩, .cmd 0x078003CF, .cmd 0x0600003F, .cmd 0x09000000] ∧
    transcribe Config.reference ["GET_DUR 65536".toList] = none ∧
    transcribe Config.reference ["pop".toList] = none ∧
    transcribe Config.reference ["PULSE 5".toList] = none := by decide

/-! ### Witnesses: the lists and the invariant on the small states -/

theorem holds_accum : windowHolds accum [550] := ⟨rfl, by decide⟩

theorem holds_noisy : windowHolds noisy [5500, 3000, 3000, 550] := ⟨rfl, by decide⟩

theorem holds_fresh : queueHolds fresh [] :=
  ⟨0, by decide, trivial, by decide, by decide, by decide, by decide⟩

theorem holds_queued : queueHolds queued [packetA] :=
  ⟨0, by decide, ⟨rfl, ⟨rfl, rfl, by decide⟩, trivial⟩, by decide, by decide, by decide, by decide⟩

theorem holds_full : queueHolds full [packetA, packetB] :=
  ⟨0, by decide, ⟨rfl, ⟨rfl, rfl, by decide⟩, rfl, ⟨rfl, rfl, by decide⟩, trivial⟩, by decide,
    by decide, by decide, by decide⟩

theorem holds_busy : queueHolds busy [packetA] ∧ windowHolds busy [550] :=
  ⟨⟨0, by decide, ⟨rfl, ⟨rfl, rfl, by decide⟩, trivial⟩, by decide, by decide, by decide, by decide⟩,
    rfl, by decide⟩

theorem holds_popped : queueHolds popped [] ∧ outputHolds popped packetA :=
  ⟨⟨4, by decide, trivial, by decide, by decide, by decide, by decide⟩, rfl, rfl, by decide⟩

theorem packetA_ok : packetOk tiny packetA := by
  refine ⟨by decide, by decide, fun k hk d hd => ?_, by decide⟩
  have h : k + 1 < 2 := hk
  obtain rfl : k = 0 := by omega
  cases hd
  decide

theorem packetB_ok : packetOk tiny packetB := by
  refine ⟨by decide, by decide, fun k hk d hd => ?_, by decide⟩
  have h : k + 1 < 2 := hk
  obtain rfl : k = 0 := by omega
  cases hd
  decide

theorem inv_fresh : Inv fresh :=
  ⟨by decide, by decide, by decide, by decide, by decide,
    ⟨by decide, by decide, [], holds_fresh, fun _ h => by cases h⟩, fun h => by cases h⟩

theorem inv_accum : Inv accum :=
  ⟨by decide, by decide, by decide, by decide, by decide,
    ⟨by decide, by decide, [], ⟨0, by decide, trivial, by decide, by decide, by decide, by decide⟩,
      fun _ h => by cases h⟩, fun h => by cases h⟩

theorem inv_queued : Inv queued :=
  ⟨by decide, by decide, by decide, by decide, by decide,
    ⟨by decide, by decide, [packetA], holds_queued, List.forall_mem_singleton.2 packetA_ok⟩, fun h => by cases h⟩

theorem inv_full : Inv full :=
  ⟨by decide, by decide, by decide, by decide, by decide,
    ⟨by decide, by decide, [packetA, packetB], holds_full,
      List.forall_mem_cons.2 ⟨packetA_ok, List.forall_mem_singleton.2 packetB_ok⟩⟩, fun h => by cases h⟩

theorem inv_busy : Inv busy :=
  ⟨by decide, by decide, by decide, by decide, by decide,
    ⟨by decide, by decide, [packetA], holds_busy.1, List.forall_mem_singleton.2 packetA_ok⟩, fun h => by cases h⟩

theorem inv_popped : Inv popped :=
  ⟨by decide, by decide, by decide, by decide, by decide,
    ⟨by decide, by decide, [], holds_popped.1, fun _ h => by cases h⟩,
    fun _ => ⟨packetA, holds_popped.2, packetA_ok⟩⟩

/-- The invariant does not read the ports. -/
theorem inv_full_pop_pending : Inv { full with cmds := [0x03000000] } :=
  inv_of_ports inv_full rfl

theorem inv_busy_edge_pending : Inv { busy with edges := [⟨12100, 12⟩] } :=
  inv_of_ports inv_busy rfl

theorem inv_queued_reset_pending : Inv { queued with resets := 1 } :=
  inv_of_ports inv_queued rfl

/-! ### Witnesses: one for each statement with hypotheses, in the statements' order -/

theorem witness_DecodeEncodeRoundTrip :
    (Instr.getDur 65535).wf ∧ (Instr.classify .fuzzy 8388607).wf ∧ Instr.status.wf := by decide

theorem witness_DecodedWordsEncodeBack :
    decode 0x07FFFFFF#32 = .ok (.classify .fuzzy 8388607) ∧ decode 0x0600FFFF#32 = .ok (.getDur 65535) := by
  decide

/-- An illegal word of each kind, a CLASSIFY opcode, and a legal word at the edge of each illegal kind. -/
theorem witness_IllegalWordsAnswerIllegal :
    decode (0x09#8 ++ 0#24) = .error .unassignedOpcode ∧
    decode (0x08#8 ++ 0x800000#24) = .error .operandNotZero ∧
    decode (0x06#8 ++ 0x010000#24) = .error .indexHighBitsNotZero ∧ (0x07#8).toNat = 7 ∧
    decode (0x08#8 ++ 0#24) = .ok .status ∧ decode (0x06#8 ++ 0x00FFFF#24) = .ok (.getDur 65535) := by
  decide

theorem witness_StepRunsTheDecodedCommand :
    tiny.wf ∧ nextSource { fresh with cmds := [0x03000000] } = some .consumer ∧
    nextSource { fresh with cmds := [0x03000001] } = some .consumer ∧
    decode 0x03000000#32 = .ok .pop ∧ decode 0x03000001#32 = .error .operandNotZero := by decide

theorem witness_StepRunsTheOldestEdgeOrReset :
    tiny.wf ∧ nextSource { fresh with edges := [⟨550, 0⟩] } = some .producer ∧
    nextSource { fresh with resets := 1 } = some .resetInput := by decide

theorem witness_StepWithNothingPendingChangesNothing : fresh.cfg.wf ∧ noneReady fresh := by
  exact ⟨by decide, rfl, rfl, rfl⟩

/-- One input ready; all three ready, with a turn the platform fixed and with one that is free. -/
theorem witness_AnyReadyInputMayGoNext :
    (ready { fresh with resets := 1 } .resetInput = true ∧
      ∀ b, ready { fresh with resets := 1 } b = true → b = .resetInput) ∧
    ready allPending .producer = true ∧
    (allPending.turns = [] ∧ ready allPending (Config.freeTurn allPending.draws) = true) := by
  refine ⟨⟨by decide, fun b => by cases b <;> decide⟩, by decide, rfl, ?_⟩
  cases Config.freeTurn allPending.draws <;> decide

theorem witness_StepsTakeInputsInOrder :
    step fresh = .next fresh ∧ (∃ t, step { fresh with edges := [⟨550, 0⟩] } = .next t) ∧
    (∃ t, step { fresh with cmds := [0x01000000] } = .next t) ∧
    ∃ t, step { fresh with resets := 1 } = .next t :=
  ⟨rfl, ⟨_, rfl⟩, ⟨_, rfl⟩, _, rfl⟩

theorem witness_OnlyAdmittedConfigurationsHaveAMeaning :
    fresh.cfg.wf ∧ ¬ (freshIn { Config.reference with ringCap := 121 }).cfg.wf := by
  exact ⟨by decide, by decide⟩

theorem witness_StepKeepsTheConfiguration : ∃ t, step { fresh with cmds := [0x01000000] } = .next t :=
  ⟨_, rfl⟩

theorem witness_EachCommandGivesOneResponse :
    (∃ t, transact (.cmd 0x08000000) accum = .next t) ∧
    (∃ t, transact (.cmd 0x03000000) fresh = .next t) ∧
    (∃ t, transact (.edge ⟨6050, 6⟩) accum = .next t) ∧ ∃ t, transact .reset accum = .next t :=
  ⟨⟨_, rfl⟩, ⟨_, rfl⟩, ⟨_, rfl⟩, _, rfl⟩

/-- ILLEGAL, RANGE, and EMPTY from POP and from a read command. -/
theorem witness_ErrorStatusesArePrecise :
    (∃ t, transact (.cmd 0x09000000) fresh = .next t ∧ t.responses = fresh.responses ++ [⟨.illegal, 0⟩]) ∧
    (∃ t, transact (.cmd 0x06000002) popped = .next t ∧
      t.responses = popped.responses ++ [⟨.range, 0⟩]) ∧
    (∃ t, transact (.cmd 0x03000000) fresh = .next t ∧ t.responses = fresh.responses ++ [⟨.empty, 0⟩]) ∧
    ∃ t, transact (.cmd 0x05000000) fresh = .next t ∧ t.responses = fresh.responses ++ [⟨.empty, 0⟩] :=
  ⟨⟨_, rfl, rfl⟩, ⟨_, rfl, rfl⟩, ⟨_, rfl, rfl⟩, _, rfl, rfl⟩

theorem witness_IllegalThenEmptyThenRange :
    (0x010000#24).extractLsb' 16 8 ≠ 0 ∧ fresh.outValid = false ∧ popped.outValid = true ∧
    popped.outLen ≤ (2#16).toNat := by decide

theorem witness_PresentedTransactionsRunInOrder : noneReady fresh ∧ fresh.turns = [] :=
  ⟨⟨rfl, rfl, rfl⟩, rfl⟩

theorem witness_ZeroIsUnclassifiable : Config.wf { tiny with tolFuzzyFx := 2000 } := by decide

theorem witness_ClassifyAnswersThreeBits :
    8388607 < 2 ^ 23 ∧ (900 ≤ 900 ∧ 1050 ≤ 1050) ∧ (5000 ≤ 5999 ∧ 5999 ≤ 5999) ∧ 6000 ≤ 6000 := by decide

theorem witness_DetachedEdgesChangeNothing : fresh.en = false := rfl

theorem witness_PulseDurationIsModular : 0 < 2 ^ tiny.clkW ∧ 2 ^ 32 - 1 < 2 ^ tiny.clkW := by decide

/-- The durations either side of every end of the strict windows (LAST_US is 6050), and of the outer ends of
the fuzzy ones; the least terminator, and the longest duration that is none. -/
theorem witness_IdleEdgesIgnoreOrStartASession :
    tiny.wf ∧ tiny.coherent ∧ (EdgeEvent.mk 11050 11).wf tiny ∧ queued.en = true ∧ queued.cst = .idle ∧
    [6389, 6390, 6810, 6811, 7239, 7240, 7660, 7661, 11049, 11050].map (fun us =>
      decide (classifyShortLong tiny (subMod us queued.lastUs (2 ^ 32)) .strict = .none)) =
      [true, false, false, true, true, false, false, true, true, true] ∧
    [6099, 6100, 7950, 7951].map (fun us =>
      decide (classifyShortLong tiny (subMod us queued.lastUs (2 ^ 32)) .fuzzy = .none)) =
      [true, false, false, true] ∧
    tiny.termUs ≤ subMod 11050 queued.lastUs (2 ^ 32) ∧
    ¬ tiny.termUs ≤ subMod 11049 queued.lastUs (2 ^ 32) := by decide

/-- The longest duration that is no terminator, and the least terminator. -/
theorem witness_AccumulatingEdgesAppend :
    (EdgeEvent.mk 5549 5).wf accum.cfg ∧ (EdgeEvent.mk 5550 5).wf accum.cfg ∧
    accum.en = true ∧ accum.cst = .accumulating ∧ accum.swp < accum.cfg.scrCap ∧
    subMod 5549 accum.lastUs (2 ^ 32) < tiny.termUs ∧
    ¬ subMod 5550 accum.lastUs (2 ^ 32) < tiny.termUs ∧
    (∃ t, transact (.edge ⟨5549, 5⟩) accum = .next t) ∧
    ∃ t, transact (.edge ⟨5550, 5⟩) accum = .next t :=
  ⟨by decide, by decide, rfl, rfl, by decide, by decide, by decide, ⟨_, rfl⟩, _, rfl⟩

/-- The scan stops inside this window: one 3000 is tolerated, the next is not. -/
theorem witness_ScanKeepsTheErrorBudget :
    noisy.cfg.wf ∧ windowHolds noisy (5500 :: [3000, 3000, 550]) ∧ scan noisy = .ok 2 :=
  ⟨by decide, holds_noisy, rfl⟩

theorem witness_ShortSessionsAreDiscarded :
    let s := { accum with cfg := { tiny with errLimit := 1 }, scr := [(0, 550), (1, 3000)], swp := 2
                          sfill := 2 }
    s.cfg.wf ∧ (EdgeEvent.mk 5550 5).wf s.cfg ∧ s.en = true ∧ s.cst = .accumulating ∧
    windowHolds s [3000, 550] ∧ s.swp < s.cfg.scrCap ∧ s.sfill ≤ s.cfg.scrCap ∧
    s.cfg.termUs ≤ subMod 5550 s.lastUs (2 ^ 32) ∧
    1 + scanCount s.cfg 1 (appended s.cfg 5000 [3000, 550]).tail < s.cfg.minPkt :=
  ⟨by decide, by decide, rfl, rfl, ⟨rfl, by decide⟩, by decide, by decide, by decide, by decide⟩

theorem witness_OnlyTheLastDurationIsNormalised :
    tiny.termUs + tiny.normMargin < 6001 ∧ 6000 ≤ tiny.termUs + tiny.normMargin ∧
    tiny.termUs ≤ 5000 := by decide

/-- An empty queue and an edge that emits nothing; a queue that holds a packet and an edge that emits one
more. -/
theorem witness_EdgesRefineTheCaptureRules :
    (EdgeEvent.mk 5549 5).wf tiny ∧ (EdgeEvent.mk 11600 11).wf tiny ∧
    emission tiny (subMod 5549 accum.lastUs (2 ^ 32)) [550] 5 = none ∧
    emission tiny (subMod 11600 busy.lastUs (2 ^ 32)) [550] 11 = some ⟨11, [550, 5000]⟩ ∧
    (Inv accum ∧ accum.en = true ∧ accum.cst = .accumulating ∧ windowHolds accum [550] ∧
      queueHolds accum []) ∧
    (Inv busy ∧ busy.en = true ∧ busy.cst = .accumulating ∧ windowHolds busy [550] ∧
      queueHolds busy [packetA]) :=
  ⟨by decide, by decide, rfl, rfl, ⟨inv_accum, rfl, rfl, holds_accum, 0, by decide, trivial, by decide, by decide, by decide,
    by decide⟩, inv_busy, rfl, rfl, holds_busy.2, holds_busy.1⟩

/-- The operand bit of `refusesOperand`, which five statements use. -/
theorem witness_refusesOperand : (1#24 : BitVec 24) ≠ 0 ∧ (0x800000#24 : BitVec 24) ≠ 0 := by decide

/-- One row of the transition table each. -/
theorem witness_CaptureStateTransitions :
    (∃ t, transact (.edge ⟨550, 0⟩) fresh = .next t) ∧ fresh.en = false ∧
    (∃ t, transact (.edge ⟨7025, 7⟩) queued = .next t) ∧
    (∃ t, transact (.edge ⟨6600, 6⟩) queued = .next t) ∧ queued.en = true ∧ queued.cst = .idle ∧
    (∃ t, transact (.edge ⟨1100, 1⟩) accum = .next t) ∧
    (∃ t, transact (.edge ⟨6050, 6⟩) accum = .next t) ∧
    (∃ t, transact (.cmd 0x02000000) accum = .next t) ∧ decode 0x02000000#32 = .ok .stop ∧
    (∃ t, transact (.cmd 0x01000000) accum = .next t) ∧ ∃ t, transact .reset accum = .next t :=
  ⟨⟨_, rfl⟩, rfl, ⟨_, rfl⟩, ⟨_, rfl⟩, rfl, rfl, ⟨_, rfl⟩, ⟨_, rfl⟩, ⟨_, rfl⟩, by decide, ⟨_, rfl⟩, _, rfl⟩

theorem witness_PopReturnsTheOldestPacket :
    full.cfg.wf ∧ queueHolds full (packetA :: [packetB]) ∧ full.qhead < full.cfg.offsCap ∧
    full.qtail < full.cfg.offsCap ∧ packetA.durs.length ≤ full.cfg.scrCap :=
  ⟨by decide, holds_full, by decide, by decide, by decide⟩

theorem witness_PopOnAnEmptyQueue : fresh.qhead = fresh.qtail := rfl

theorem witness_GetLenReadsTheLength : queued.outValid = false ∧ popped.outValid = true ∧
    popped.outLen < 2 ^ 32 ∧ outputOk popped := ⟨rfl, rfl, by decide, inv_popped.output⟩

theorem witness_GetTsReadsTheTimestamp :
    queued.outValid = false ∧ popped.outValid = true ∧ popped.outTs = some 6 ∧ 6 < 2 ^ 32 :=
  ⟨rfl, rfl, rfl, by decide⟩

/-- The last index 1, the index 2 past it, and the index 0 before it. -/
theorem witness_GetDurReadsByIndex :
    queued.outValid = false ∧ popped.outValid = true ∧ popped.outLen ≤ 2 ∧ 1 + 1 = popped.outLen ∧
    popped.cfg.termUs < 2 ^ 32 ∧ 0 + 1 < popped.outLen ∧ 0 < popped.cfg.scrCap ∧
    popped.outDur.read 0 = some 550 ∧ 550 < 2 ^ 32 := by decide

theorem witness_ReadingUnwrittenOutputFaults :
    let s := { fresh with outValid := true, outLen := 2 }
    s.outValid = true ∧ s.outTs = none ∧ 0 + 1 < s.outLen ∧ 0 < s.cfg.scrCap ∧
    s.outDur.read 0 = none ∧ Inv popped ∧ popped.outValid = true :=
  ⟨rfl, rfl, by decide, by decide, rfl, inv_popped, rfl⟩

/-- With room for the packet, and without. -/
theorem witness_EvictionIsTheLeastThatFits :
    queueHolds queued [packetA] ∧ queueHolds full [packetA, packetB] ∧ 2 ≤ tiny.hdrSlots ∧
    2 ≤ tiny.offsCap ∧ queued.qhead < tiny.offsCap ∧ full.qhead < tiny.offsCap ∧
    full.qtail < tiny.offsCap ∧ packetB.slots tiny ≤ tiny.ringCap :=
  ⟨holds_queued, holds_full, by decide, by decide, by decide, by decide, by decide, by decide⟩

theorem witness_QueueContentsAreUnique : queueHolds full [packetA, packetB] := holds_full

/-- A POP, an EDGE that emits into a queue that is not empty, and a RESET. -/
theorem witness_StepsRefineAFifoQueue :
    (Inv { full with cmds := [0x03000000] } ∧ ∃ t, step { full with cmds := [0x03000000] } = .next t) ∧
    (Inv { busy with edges := [⟨12100, 12⟩] } ∧
      ∃ t, step { busy with edges := [⟨12100, 12⟩] } = .next t) ∧
    (Inv { queued with resets := 1 } ∧ ∃ t, step { queued with resets := 1 } = .next t) :=
  ⟨⟨inv_full_pop_pending, _, rfl⟩, ⟨inv_busy_edge_pending, _, rfl⟩, inv_queued_reset_pending, _, rfl⟩

theorem witness_NonEmptyQueueStaysNonEmpty :
    Inv full ∧ full.qhead ≠ full.qtail ∧ (∃ t, transact (.edge ⟨6600, 6⟩) full = .next t) ∧
    (Transaction.edge ⟨6600, 6⟩ ≠ .reset) ∧
    ∀ w, Transaction.edge ⟨6600, 6⟩ = .cmd w → decode w ≠ .ok .pop :=
  ⟨inv_full, by decide, ⟨_, rfl⟩, by decide, fun _ h => by cases h⟩

theorem witness_StatusReportsItsFields : full.cfg.wf ∧ full.qused ≤ full.cfg.ringCap := by decide

theorem witness_ReadCommandsAreIdempotent :
    (∃ t, exec .nop popped = .next t) ∧ (∃ t, exec .getLen popped = .next t) ∧
    (∃ t, exec .getTs popped = .next t) ∧ (∃ t, exec (.getDur 0) popped = .next t) ∧
    (∃ t, exec .status popped = .next t) ∧ ∃ t, exec (.classify .fuzzy 975) popped = .next t :=
  ⟨⟨_, rfl⟩, ⟨_, rfl⟩, ⟨_, rfl⟩, ⟨_, rfl⟩, ⟨_, rfl⟩, _, rfl⟩

theorem witness_CommandsLeaveTheProducersStateAlone :
    (∃ t, exec .pop full = .next t) ∧ (∃ t, exec .start fresh = .next t) ∧
    ∃ t, exec .stop accum = .next t := ⟨⟨_, rfl⟩, ⟨_, rfl⟩, _, rfl⟩

theorem witness_PopAndResetAloneWriteTheOutputBuffer :
    (∃ t, transact (.edge ⟨6600, 6⟩) popped = .next t) ∧
    (∃ t, transact (.cmd 0x02000000) popped = .next t) ∧ decode 0x02000000#32 ≠ .ok .pop :=
  ⟨⟨_, rfl⟩, ⟨_, rfl⟩, by decide⟩

theorem witness_OnlyStartAttaches :
    ∃ t, step { fresh with cmds := [0x01000000] } = .next t ∧ fresh.en = false ∧ t.en = true :=
  ⟨_, rfl, rfl, rfl⟩

/-- The launch of 95_test_vectors.md, with `v = 0`. -/
theorem witness_QuietStartSetsTheClockOnly :
    let s := { freshIn Config.reference with
      edges := [⟨10000, 10⟩], cmds := [0x01000000], turns := [.consumer, .producer] }
    s.cfg.wf ∧ quietStart 0 s :=
  ⟨by decide, ⟨by decide, rfl⟩, ⟨10000, 10⟩, [], [], [], rfl, rfl, rfl, by decide⟩

theorem witness_ResetHasTheInvariant :
    accum.cfg.coherent ∧ ∃ t, transact .reset accum = .next t := ⟨by decide, _, rfl⟩

theorem witness_StepKeepsTheInvariant :
    Inv { busy with edges := [⟨12100, 12⟩] } ∧
    ∃ t, step { busy with edges := [⟨12100, 12⟩] } = .next t :=
  ⟨inv_busy_edge_pending, _, rfl⟩

theorem witness_NoStepStops : Inv busy := inv_busy

/-- One wide value at each place: the length, the timestamp, a stored duration, and the terminator constant of
an admitted configuration with a 40-bit clock. -/
theorem witness_WideValuesAnswerTheirLowBits :
    let wide := { tiny with clkW := 40, termUs := 2 ^ 33, fixedTermHi := 2 ^ 33 + 1 }
    popped.outValid = true ∧ { popped with outLen := 2 ^ 32 }.outLen = 2 ^ 32 ∧
    { popped with outTs := some (2 ^ 32) }.outTs = some (2 ^ 32) ∧
    (0 + 1 < popped.outLen ∧ 0 < popped.cfg.scrCap ∧
      { popped with outDur := [(0, 2 ^ 32)] }.outDur.read 0 = some (2 ^ 32)) ∧
    wide.wf ∧ 2 ^ 32 ≤ wide.termUs ∧ 1 + 1 = { popped with cfg := wide }.outLen := by decide

end Sys2Proof.Tests
end

section
/-! SUPPORT. The scope of the model (00_scope.md): which configurations a step gives a meaning. -/

namespace Sys2Proof.Machine

/-- In an admitted configuration a step does nothing or runs one transaction, and no transaction is
refused. -/
theorem step_not_refused_of_wf {s : State} (hwf : s.cfg.wf) (r : Refusal) : step s ≠ .refused r := by
  rw [step, if_pos hwf]
  split
  · simp
  · exact transact_not_refused

theorem step_of_not_wf {s : State} (hwf : ¬ s.cfg.wf) : step s = .refused .configNotAdmitted :=
  if_neg hwf

/-- Settles O10: the seven items as R10 writes them are those of `Config.wf`, which `step` tests first. -/
theorem onlyAdmittedConfigurationsHaveAMeaning :
    Obligations.OnlyAdmittedConfigurationsHaveAMeaning :=
  fun _ => ⟨step_not_refused_of_wf, step_of_not_wf⟩

end Sys2Proof.Machine
end

section
/-! SUPPORT. The illegal words (30_encoding.md rules R52 and R53): what the decoder answers in each part of
the opcode map, and from it which words it rejects. -/

namespace Sys2Proof

/-! ### The decoder over the opcode map -/

/-- The opcode map has four parts: CLASSIFY, GET_DUR, the format N opcodes, and the unassigned ones. -/
theorem opcode_map_cases (op : Nat) :
    op = 7 ∨ op = 6 ∨ (op ∈ [0, 1, 2, 3, 4, 5, 8] ∧ ∃ i, formatNCommand op = some i) ∨ 9 ≤ op := by
  rcases Nat.lt_or_ge op 9 with h | h
  · interval_cases op <;> simp [formatNCommand]
  · exact .inr (.inr (.inr h))

theorem formatNCommand_eq_none_of_ge {op : Nat} (h : 9 ≤ op) : formatNCommand op = none := by
  cases hf : formatNCommand op with
  | none => rfl
  | some i =>
    obtain ⟨hop, -, -⟩ := formatNCommand_eq_some hf
    have := opcode_le i
    omega

theorem decode_of_classify {w : Word} (h : bits w 31 24 = 7) :
    decode w = .ok (.classify (toleranceOfBit (bits w 23 23)) (bits w 22 0)) := if_pos h

theorem decode_of_getDur {w : Word} (h : bits w 31 24 = 6) :
    decode w =
      if bits w 23 16 = 0 then .ok (.getDur (bits w 15 0)) else .error .indexHighBitsNotZero := by
  simp [decode, h]

theorem decode_of_formatN {w : Word} {i : Instr} (h : formatNCommand (bits w 31 24) = some i) :
    decode w = if bits w 23 0 = 0 then .ok i else .error .operandNotZero := by
  have h7 : bits w 31 24 ≠ 7 := by intro e; simp [e, formatNCommand] at h
  have h6 : bits w 31 24 ≠ 6 := by intro e; simp [e, formatNCommand] at h
  simp [decode, h7, h6, h]

theorem decode_of_unassigned {w : Word} (h : 9 ≤ bits w 31 24) :
    decode w = .error .unassignedOpcode := by
  have h7 : bits w 31 24 ≠ 7 := by omega
  have h6 : bits w 31 24 ≠ 6 := by omega
  simp [decode, h7, h6, formatNCommand_eq_none_of_ge h]

/-! ### The illegal words and the others -/

/-- The three kinds of illegal word, by the fields of the word. -/
theorem decode_error_iff {w : Word} :
    (∃ r, decode w = .error r) ↔
      9 ≤ bits w 31 24 ∨ (bits w 31 24 ∈ [0, 1, 2, 3, 4, 5, 8] ∧ bits w 23 0 ≠ 0) ∨
        (bits w 31 24 = 6 ∧ bits w 23 16 ≠ 0) := by
  obtain h | h | ⟨hmem, i, h⟩ | h := opcode_map_cases (bits w 31 24)
  · simp [decode_of_classify h, h]
  · by_cases hz : bits w 23 16 = 0 <;> simp [decode_of_getDur h, h, hz]
  · have hlt : ¬ 9 ≤ bits w 31 24 := by intro h9; simp [formatNCommand_eq_none_of_ge h9] at h
    have h6 : bits w 31 24 ≠ 6 := by intro e; simp [e] at hmem
    by_cases hz : bits w 23 0 = 0 <;> simp [decode_of_formatN h, hz, hmem, hlt, h6]
  · simp [decode_of_unassigned h, h]

/-- The operands that the decoder reads are in range. -/
theorem wf_of_decode {w : Word} {i : Instr} (hi : decode w = .ok i) : i.wf := by
  obtain h | h | ⟨-, j, h⟩ | h := opcode_map_cases (bits w 31 24)
  · rw [decode_of_classify h] at hi
    cases hi
    exact bits_lt w 22 0
  · rw [decode_of_getDur h] at hi
    split at hi <;> cases hi
    exact bits_lt w 15 0
  · rw [decode_of_formatN h] at hi
    split at hi <;> cases hi
    exact (formatNCommand_eq_some h).2.2
  · rw [decode_of_unassigned h] at hi
    cases hi

namespace Machine

theorem transact_of_decode_error {w : Word} {r : IllegalWord} (h : decode w = .error r) (s : State) :
    transact (.cmd w) s = .next (respondIllegal s) := by
  simp [transact, runCommand, h]

/-- Settles O3: `decode_error_iff` on the fields of `op ++ low`; a word that is not illegal decodes, and its
operands are field values of the right width. -/
theorem illegalWordsAnswerIllegal : Obligations.IllegalWordsAnswerIllegal := by
  intro op low
  refine ⟨?kinds, ?answer, ?classify, ?legal⟩
  case kinds =>
    rw [decode_error_iff, bits_opcode_append, bits_operand_append, bits_index_high_append]
    simp [BitVec.toNat_eq]
  case answer =>
    rintro ⟨r, hr⟩ s
    exact transact_of_decode_error hr s
  case classify =>
    intro h
    exact ⟨_, decode_of_classify ((bits_opcode_append op low).trans h)⟩
  case legal =>
    intro hlegal
    cases hd : decode (op ++ low) with
    | error r => exact absurd ⟨r, hd⟩ hlegal
    | ok i => exact ⟨i, rfl, wf_of_decode hd⟩

end Machine
end Sys2Proof
end

section
/-! SUPPORT. The pseudo forms of a transaction script (30_encoding.md rule R56). -/

namespace Sys2Proof.Machine

/-- Settles O16: each pseudo form has its line of the table as its equation in `expandScript`. -/
theorem pseudoFormsExpand : Obligations.PseudoFormsExpand := by
  intro c t base d ls
  refine ⟨?clsStrict, ?clsFuzzy, ?timeBase, ?pulse⟩
  case clsStrict => rw [expandScript, expandScript]
  case clsFuzzy => rw [expandScript, expandScript]
  case timeBase => rw [expandScript]
  case pulse => rw [expandScript, trunc]

end Sys2Proof.Machine
end

section
/-! SUPPORT. The answers of the classifier by its windows (40_classifier.md rules R57 to R62): the closed
windows as the spec writes them, over the integers, and which windows give which answer. -/

namespace Sys2Proof.Machine

/-! ### Windows and the answers they give -/

/-- A window with both ends included, as R57 writes it: `ref - tol` may be negative, so over `Int`. -/
theorem inWindow_iff_int {ref tol d : Nat} :
    inWindow ref tol d = true ↔ (ref : Int) - tol ≤ d ∧ (d : Int) ≤ ref + tol := by
  rw [inWindow_iff]
  omega

@[simp] theorem classifyShortLong_zero (c : Config) (fz : Tolerance) :
    classifyShortLong c 0 fz = .none := if_pos rfl

@[simp] theorem isFixed_zero (c : Config) (fz : Tolerance) : isFixed c 0 fz = false := if_pos rfl

theorem classifyShortLong_eq_short_iff {c : Config} {d : Nat} {fz : Tolerance} :
    classifyShortLong c d fz = .short ↔
      d ≠ 0 ∧ (inWindow c.shortUs c.tolStrict d = true ∨
        (¬ inWindow c.longUs c.tolStrict d = true ∧ fz = .fuzzy ∧
          inWindow c.shortUs c.tolFuzzySl d = true)) := by
  unfold classifyShortLong
  split_ifs with zero strictShort strictLong fuzzyShort fuzzyLong
  · simp [zero]
  · simp [zero, strictShort]
  · simp [strictShort, strictLong]
  · simp [zero, strictLong, fuzzyShort]
  · simp [strictShort, strictLong, fuzzyShort]
  · simp [strictShort, strictLong, fuzzyShort]

theorem classifyShortLong_eq_long_iff {c : Config} {d : Nat} {fz : Tolerance} :
    classifyShortLong c d fz = .long ↔
      d ≠ 0 ∧ ¬ inWindow c.shortUs c.tolStrict d = true ∧
        (inWindow c.longUs c.tolStrict d = true ∨
          (fz = .fuzzy ∧ ¬ inWindow c.shortUs c.tolFuzzySl d = true ∧
            inWindow c.longUs c.tolFuzzySl d = true)) := by
  unfold classifyShortLong
  split_ifs with zero strictShort strictLong fuzzyShort fuzzyLong
  · simp [zero]
  · simp [strictShort]
  · simp [zero, strictShort, strictLong]
  · simp [strictLong, fuzzyShort]
  · have missesShort : ¬ inWindow c.shortUs c.tolFuzzySl d = true :=
      fun h => fuzzyShort ⟨fuzzyLong.1, h⟩
    simp [zero, strictShort, fuzzyLong, missesShort]
  · have missesLong : ¬ (fz = .fuzzy ∧ ¬ inWindow c.shortUs c.tolFuzzySl d = true ∧
        inWindow c.longUs c.tolFuzzySl d = true) := fun ⟨hfz, _, h⟩ => fuzzyLong ⟨hfz, h⟩
    exact iff_of_false (by decide) fun ⟨_, _, h⟩ => h.elim strictLong missesLong

theorem isFixed_iff {c : Config} {d : Nat} {fz : Tolerance} :
    isFixed c d fz = true ↔
      d ≠ 0 ∧ ((c.termUs ≤ d ∧ d < c.fixedTermHi) ∨ inWindow c.fixedUs c.tolStrict d = true ∨
        (fz = .fuzzy ∧ inWindow c.fixedUs c.tolFuzzyFx d = true)) := by
  unfold isFixed
  split_ifs with zero continuation strictFixed fuzzyFixed
  · simp [zero]
  · simp [zero, continuation]
  · simp [zero, strictFixed]
  · simp [zero, fuzzyFixed]
  · simp [continuation, strictFixed, fuzzyFixed]

/-- The terminator threshold is positive where R10 holds: it lies above the FIXED window (item 6). -/
theorem termUs_pos {c : Config} (hwf : c.wf) : 0 < c.termUs := by
  obtain ⟨-, -, -, -, -, ⟨-, hfixed, -⟩, -⟩ := hwf
  omega

/-! ### The obligations -/

/-- Settles O17: the two answers by their windows, each window over the integers. -/
theorem shortLongByWindows : Obligations.ShortLongByWindows := by
  intro c d fz
  simp only [← inWindow_iff_int]
  exact ⟨classifyShortLong_eq_short_iff, classifyShortLong_eq_long_iff⟩

/-- Settles O18: `isFixed_iff`, and the two durations at the end of the continuation range. -/
theorem fixedByWindows : Obligations.FixedByWindows := by
  refine ⟨?windows, ?halfOpen⟩
  case windows =>
    intro c d fz
    simp only [← inWindow_iff_int]
    exact isFixed_iff
  case halfOpen =>
    intro fz
    cases fz <;> decide

/-- Settles O20: the classifier and `isFixed` test for 0 first, and 0 lies below the terminator threshold. -/
theorem zeroIsUnclassifiable : Obligations.ZeroIsUnclassifiable := by
  intro c fz hwf
  refine ⟨classifyShortLong_zero c fz, isFixed_zero c fz, ?_⟩
  rw [Bool.eq_false_iff, Ne, isTerminator_iff]
  exact Nat.not_le.2 (termUs_pos hwf)

end Sys2Proof.Machine
end

section
/-! SUPPORT. EDGE as the statements about the capture side present it (41_capture.md rules R67 to R76): samples
that fit their inputs, the modular duration, and one equation for an EDGE in ACCUMULATING. -/

namespace Sys2Proof

/-- A difference modulo `n` measures any distance modulo `n`, also where the left side has wrapped. -/
theorem subMod_add_mod {b n : Nat} (hb : b < n) (x : Nat) : subMod ((b + x) % n) b n = x % n := by
  have hn : 0 < n := by omega
  have hback : (b + subMod ((b + x) % n) b n) % n = (b + x) % n :=
    subMod_add_self (Nat.mod_lt _ hn) hb
  have hcancel : subMod ((b + x) % n) b n ≡ x [MOD n] := Nat.ModEq.add_left_cancel' b hback
  calc subMod ((b + x) % n) b n
      = subMod ((b + x) % n) b n % n := (Nat.mod_eq_of_lt (subMod_lt _ _ hn)).symm
    _ = x % n := hcancel

namespace Machine

/-! ### The samples of a well-formed EDGE -/

theorem edgeUs_of_wf {c : Config} {e : EdgeEvent} (he : e.wf c) : edgeUs c e = e.tUs :=
  trunc_eq_self he.1

theorem edgeMs_of_wf {c : Config} {e : EdgeEvent} (he : e.wf c) : edgeMs c e = e.tMs :=
  trunc_eq_self he.2

theorem transact_edge_eq_next {e : EdgeEvent} {s t : State} :
    transact (.edge e) s = .next t ↔ edge e s = .ok t := finish_eq_next

/-! ### EDGE in ACCUMULATING -/

/-- The state once an EDGE sampled at `tUs` has updated `LAST_US` and appended its duration (R68, R71). -/
def durationAppended (s : State) (tUs : Nat) : State :=
  { s with
    lastUs := tUs
    scr := s.scr.write s.swp (subMod tUs s.lastUs (2 ^ s.cfg.clkW))
    swp := (s.swp + 1) % s.cfg.scrCap
    sfill := min (s.sfill + 1) s.cfg.scrCap }

/-- In ACCUMULATING an EDGE appends, and a terminator meets the boundary (R71, R72). -/
theorem edge_accumulating_of_wf {s : State} {e : EdgeEvent} (he : e.wf s.cfg) (hen : s.en = true)
    (hst : s.cst = .accumulating) (hw : s.swp < s.cfg.scrCap) :
    edge e s =
      if s.cfg.termUs ≤ subMod e.tUs s.lastUs (2 ^ s.cfg.clkW) then
        boundary (durationAppended s e.tUs) e.tMs
      else .ok (durationAppended s e.tUs) := by
  have happend : append { s with lastUs := edgeUs s.cfg e }
      (pulseDuration s.cfg (edgeUs s.cfg e) s.lastUs) = .ok (durationAppended s e.tUs) := by
    rw [edgeUs_of_wf he]
    exact append_eq_ok _ hw
  rw [edge_accumulating hen hst happend, edgeUs_of_wf he, edgeMs_of_wf he]
  simp only [isTerminator_iff, pulseDuration]

/-- The boundary leaves `LAST_US` and the scratch window alone, so after any EDGE in ACCUMULATING they are
those of the append. -/
theorem edge_accumulating_window {s t : State} {e : EdgeEvent} (he : e.wf s.cfg) (hen : s.en = true)
    (hst : s.cst = .accumulating) (hw : s.swp < s.cfg.scrCap) (h : edge e s = .ok t) :
    t.lastUs = (durationAppended s e.tUs).lastUs ∧ t.scr = (durationAppended s e.tUs).scr ∧
      t.swp = (durationAppended s e.tUs).swp ∧ t.sfill = (durationAppended s e.tUs).sfill := by
  rw [edge_accumulating_of_wf he hen hst hw] at h
  split at h
  case isTrue =>
    rw [boundary_frame h]
    exact ⟨rfl, rfl, rfl, rfl⟩
  case isFalse =>
    cases h
    exact ⟨rfl, rfl, rfl, rfl⟩

/-- The window after the append: the duration at its head, then what is kept of the session. -/
theorem windowHolds_durationAppended {s : State} {ds : List Nat} (h : windowHolds s ds)
    (hw : s.swp < s.cfg.scrCap) (hf : s.sfill ≤ s.cfg.scrCap) (tUs : Nat) :
    windowHolds (durationAppended s tUs)
      (subMod tUs s.lastUs (2 ^ s.cfg.clkW) ::
        (appended s.cfg (subMod tUs s.lastUs (2 ^ s.cfg.clkW)) ds).tail) := by
  obtain ⟨t, -, hwindow, ht⟩ := append_spec h (subMod tUs s.lastUs (2 ^ s.cfg.clkW)) hw hf
  rw [← appended_cons (Nat.zero_lt_of_lt hw)]
  rw [ht] at hwindow
  exact hwindow

/-! ### The obligations -/

/-- Settles O22: `edge_detached`. -/
theorem detachedEdgesChangeNothing : Obligations.DetachedEdgesChangeNothing :=
  fun _ e hen => transact_edge_eq_next.2 (edge_detached hen e)

/-- Settles O23: the two cases of the modular difference, and `subMod_add_mod` for an interval. -/
theorem pulseDurationIsModular : Obligations.PulseDurationIsModular := by
  intro c now last x hnow hlast
  refine ⟨?difference, subMod_add_mod hlast x⟩
  unfold pulseDuration
  split
  case isTrue hle => exact subMod_of_le hle (by omega)
  case isFalse hwrap => exact subMod_of_lt (by omega) (by omega)

/-- Settles O25: the window of any EDGE in ACCUMULATING is that of the append, and one that is no terminator
stops there. -/
theorem accumulatingEdgesAppend : Obligations.AccumulatingEdgesAppend := by
  intro s e he hen hst hw d
  refine ⟨?window, ?noTerminator⟩
  case window =>
    intro t ht
    obtain ⟨hlast, hscr, hswp, hsfill⟩ :=
      edge_accumulating_window he hen hst hw (transact_edge_eq_next.1 ht)
    refine ⟨hlast, hswp, hsfill, ?_, fun i hi => ?_⟩
    · rw [hscr]
      exact Memory.read_write_same ..
    · rw [hscr]
      exact Memory.read_write_other _ _ hi
  case noTerminator =>
    intro hd
    refine ⟨durationAppended s e.tUs, transact_edge_eq_next.2 ?_, rfl⟩
    rw [edge_accumulating_of_wf he hen hst hw, if_neg (Nat.not_le.2 hd)]

/-- Settles O27: the terminator meets the boundary over the window just appended to, whose packet is too
short. -/
theorem shortSessionsAreDiscarded : Obligations.ShortSessionsAreDiscarded := by
  intro s e ds _ he hen hst hds hw hf d hterm hshort
  refine ⟨{ durationAppended s e.tUs with cst := .idle }, transact_edge_eq_next.2 ?_, rfl⟩
  have hwindow := windowHolds_durationAppended hds hw hf e.tUs
  rw [edge_accumulating_of_wf he hen hst hw, if_pos hterm,
    boundary_eq hwindow (Nat.zero_lt_of_lt hw), emittedPacket_length]
  exact if_pos hshort

end Machine
end Sys2Proof
end

section
/-! SUPPORT. START and STOP (41_capture.md rules R81 and R82), and for every format N opcode the refusal of an
operand (30_encoding.md rule R52). -/

namespace Sys2Proof.Machine

/-- A format N opcode with an operand is an illegal word, and an illegal word is answered `(ILLEGAL, 0)`. -/
theorem refusesOperand_of_formatN {op : BitVec 8} (hop : op.toNat ∈ [0, 1, 2, 3, 4, 5, 8]) :
    refusesOperand op := by
  intro low s hlow
  obtain ⟨illegalIff, answersIllegal, -, -⟩ := illegalWordsAnswerIllegal op low
  exact answersIllegal (illegalIff.2 (.inr (.inl ⟨hop, hlow⟩))) s

/-- Settles O30: START's word and its effect are computed; an operand is refused by
`refusesOperand_of_formatN`. -/
theorem startAttaches : Obligations.StartAttaches := by
  refine ⟨?word, ?effect, ?operand⟩
  case word => decide
  case effect => exact fun _ => rfl
  case operand => exact refusesOperand_of_formatN (by decide)

/-- Settles O31: STOP's word and its effect are computed; an operand is refused by
`refusesOperand_of_formatN`. -/
theorem stopAbandonsTheSession : Obligations.StopAbandonsTheSession := by
  refine ⟨?word, ?effect, ?operand⟩
  case word => decide
  case effect => exact fun _ => rfl
  case operand => exact refusesOperand_of_formatN (by decide)

end Sys2Proof.Machine
end

section
/-! SUPPORT. The consumer side of the packet queue (42_queue.md rules R88 to R93): which of POP's two rules a
queue selects, what GET_DUR's index names, and the answers of POP, GET_LEN, GET_TS and GET_DUR. -/

namespace Sys2Proof.Machine

/-! ### POP -/

theorem exec_pop_of_empty {s : State} (h : s.qhead = s.qtail) : exec .pop s = .next (popEmpty s) :=
  if_pos (beq_iff_eq.2 h)

theorem exec_pop_of_nonempty {s : State} (h : s.qhead ≠ s.qtail) :
    exec .pop s = finish (popPacket s) :=
  if_neg (mt beq_iff_eq.1 h)

/-- A queue that holds a packet has a positive `QCOUNT`, so its indices differ (R24). -/
theorem qhead_ne_qtail_of_queueHolds_cons {s : State} {p : Packet} {ps : List Packet}
    (h : queueHolds s (p :: ps)) : s.qhead ≠ s.qtail := by
  obtain ⟨-, -, -, hcount, -⟩ := h
  intro heq
  rw [qcount, heq, subMod_self] at hcount
  exact Nat.succ_ne_zero _ hcount

/-- Settles O33: the queue is not empty, so POP copies (`popPacket_spec`); an operand is refused by
`refusesOperand_of_formatN`. -/
theorem popReturnsTheOldestPacket : Obligations.PopReturnsTheOldestPacket := by
  refine ⟨?word, ?effect, ?operand⟩
  case word => decide
  case effect =>
    intro s p ps _ hq hhead htail hlen
    obtain ⟨t, hpop, hqueue, hout, hframe, hrest, -⟩ := popPacket_spec hq hhead htail hlen
    have hexec : exec .pop s = .next t :=
      (exec_pop_of_nonempty (qhead_ne_qtail_of_queueHolds_cons hq)).trans (finish_eq_next.2 hpop)
    exact ⟨t, hexec, hqueue, hout, hframe, hrest⟩
  case operand => exact refusesOperand_of_formatN (by decide)

/-- Settles O34: `exec_pop_of_empty` twice, for the first POP moves neither index. -/
theorem popOnAnEmptyQueue : Obligations.PopOnAnEmptyQueue :=
  fun _ h => ⟨exec_pop_of_empty h, exec_pop_of_empty h⟩

/-! ### GET_LEN -/

theorem exec_getLen_of_noPacket {s : State} (h : s.outValid = false) :
    exec .getLen s = .next (respond s .empty 0) :=
  if_neg (Bool.eq_false_iff.1 h)

theorem exec_getLen_of_packet {s : State} (h : s.outValid = true) :
    exec .getLen s = .next (respond s .ok (dataOf s.outLen)) :=
  if_pos h

/-- The length range of R30 item 5, for the output buffer. -/
theorem outLen_bounds {s : State} (hout : outputOk s) (h : s.outValid = true) :
    s.cfg.minPkt ≤ s.outLen ∧ s.outLen ≤ s.cfg.scrCap := by
  obtain ⟨p, ⟨hlen, -, -⟩, hmin, hmax, -, -⟩ := hout h
  exact hlen ▸ ⟨hmin, hmax⟩

/-- Settles O35: one lemma for each value of `OUT_VALID`, and `outLen_bounds` for the range; an operand is
refused by `refusesOperand_of_formatN`. -/
theorem getLenReadsTheLength : Obligations.GetLenReadsTheLength := by
  refine ⟨?word, fun s => ⟨?noPacket, ?packet, ?range⟩, ?operand⟩
  case word => decide
  case noPacket => exact exec_getLen_of_noPacket
  case packet => exact fun h _ => exec_getLen_of_packet h
  case range => exact outLen_bounds
  case operand => exact refusesOperand_of_formatN (by decide)

/-! ### GET_TS -/

theorem exec_getTs_of_noPacket {s : State} (h : s.outValid = false) :
    exec .getTs s = .next (respond s .empty 0) :=
  if_neg (Bool.eq_false_iff.1 h)

theorem exec_getTs_of_packet {s : State} {ts : Nat} (h : s.outValid = true) (hts : s.outTs = some ts) :
    exec .getTs s = .next (respond s .ok (dataOf ts)) := by
  simp [exec, execGetTs, h, readOutTs_eq_ok.2 hts]

/-- Settles O36: one lemma for each value of `OUT_VALID`; an operand is refused by
`refusesOperand_of_formatN`. -/
theorem getTsReadsTheTimestamp : Obligations.GetTsReadsTheTimestamp := by
  refine ⟨?word, fun s => ⟨?noPacket, ?packet⟩, ?operand⟩
  case word => decide
  case noPacket => exact exec_getTs_of_noPacket
  case packet => exact fun ts h hts _ => exec_getTs_of_packet h hts
  case operand => exact refusesOperand_of_formatN (by decide)

/-! ### GET_DUR -/

theorem indexTarget_noPacket {s : State} (idx : Nat) (h : s.outValid = false) :
    indexTarget s idx = .noPacket :=
  if_pos h

theorem indexTarget_outOfRange {s : State} {idx : Nat} (h : s.outValid = true) (hidx : s.outLen ≤ idx) :
    indexTarget s idx = .outOfRange := by
  simp [indexTarget, h, hidx]

theorem indexTarget_lastElement {s : State} {idx : Nat} (h : s.outValid = true)
    (hidx : idx + 1 = s.outLen) : indexTarget s idx = .lastElement := by
  simp [indexTarget, h, ← hidx]

theorem indexTarget_element {s : State} {idx : Nat} (h : s.outValid = true)
    (hidx : idx + 1 < s.outLen) : indexTarget s idx = .element := by
  have hin : ¬ s.outLen ≤ idx := by omega
  have hlast : idx ≠ s.outLen - 1 := by omega
  simp [indexTarget, h, hin, hlast]

theorem exec_getDur_of_noPacket {s : State} {idx : Nat} (h : indexTarget s idx = .noPacket) :
    exec (.getDur idx) s = .next (respond s .empty 0) := by
  simp [exec, execGetDur, h]

theorem exec_getDur_of_outOfRange {s : State} {idx : Nat} (h : indexTarget s idx = .outOfRange) :
    exec (.getDur idx) s = .next (respond s .range 0) := by
  simp [exec, execGetDur, h]

theorem exec_getDur_of_lastElement {s : State} {idx : Nat} (h : indexTarget s idx = .lastElement) :
    exec (.getDur idx) s = .next (respond s .ok (dataOf s.cfg.termUs)) := by
  simp [exec, execGetDur, h]

theorem exec_getDur_of_element {s : State} {idx v : Nat} (h : indexTarget s idx = .element)
    (hcap : idx < s.cfg.scrCap) (hv : s.outDur.read idx = some v) :
    exec (.getDur idx) s = .next (respond s .ok (dataOf v)) := by
  simp [exec, execGetDur, h, readOutDur_eq_ok.2 ⟨hcap, hv⟩]

/-- Format I (R48): `OP`, eight bits that must be 0, and the index. -/
theorem encode_getDur (idx : BitVec 16) : encode (.getDur idx.toNat) = 0x0600#16 ++ idx := by
  have hword : (encode (.getDur idx.toNat)).toNat = 6 * 2 ^ 24 + idx.toNat := encode_toNat idx.isLt
  refine BitVec.eq_of_toNat_eq ?_
  rw [hword, BitVec.toNat_append, ← Nat.shiftLeft_add_eq_or_of_lt idx.isLt]
  rfl

/-- Settles O37: each index is named by one `indexTarget` lemma and answered by the `exec_getDur` lemma of its
target; a word with any of `w[23:16]` is illegal by `illegalWordsAnswerIllegal`. -/
theorem getDurReadsByIndex : Obligations.GetDurReadsByIndex := by
  refine ⟨encode_getDur, fun s idx => ⟨?noPacket, ?outOfRange, ?lastElement, ?element⟩, ?operand⟩
  case noPacket => exact fun h => exec_getDur_of_noPacket (indexTarget_noPacket idx h)
  case outOfRange => exact fun h hidx => exec_getDur_of_outOfRange (indexTarget_outOfRange h hidx)
  case lastElement => exact fun h hidx _ => exec_getDur_of_lastElement (indexTarget_lastElement h hidx)
  case element =>
    exact fun v h hidx hcap hv _ => exec_getDur_of_element (indexTarget_element h hidx) hcap hv
  case operand =>
    intro low s hlow
    obtain ⟨illegalIff, answersIllegal, -, -⟩ := illegalWordsAnswerIllegal 0x06 low
    exact answersIllegal (illegalIff.2 (.inr (.inr ⟨rfl, hlow⟩))) s

end Sys2Proof.Machine
end

section
/-! SUPPORT. NOP (43_status.md rule R95). -/

namespace Sys2Proof.Machine

/-- Settles O43: NOP's word is computed; its effect is the shared answer `respond` and nothing else; an operand
is refused by `refusesOperand_of_formatN`. -/
theorem nopOnlyResponds : Obligations.NopOnlyResponds := by
  refine ⟨?word, ?effect, ?operand⟩
  case word => decide
  case effect => exact fun _ => rfl
  case operand => exact refusesOperand_of_formatN (by decide)

end Sys2Proof.Machine
end

section
/-! SUPPORT. The RESET transaction (70_reset_and_hazards.md rule R109). -/

namespace Sys2Proof.Machine

@[simp] theorem transact_reset (s : State) : transact .reset s = .next (resetBlock s) := rfl

/-- Settles O49: RESET gives `resetBlock s`, whose fields the `resetBlock` lemmas of Laws/State.lean name; the
free draw in `LAST_US` fits by `trunc_lt`, and in an emptied memory no element is written (`Memory.read_nil`). -/
theorem resetGivesTheInitialState : Obligations.ResetGivesTheInitialState := by
  intro s
  refine ⟨resetBlock s, transact_reset s, ?capture, ?window, ?pointers, ?rings, ?output, ?frame⟩
  case capture => exact ⟨resetBlock_en s, resetBlock_cst s, trunc_lt _ _⟩
  case window => exact ⟨resetBlock_swp s, resetBlock_sfill s, Memory.read_nil⟩
  case pointers => exact ⟨resetBlock_qhead s, resetBlock_qtail s, resetBlock_qused s, resetBlock_qwp s⟩
  case rings => exact fun i => ⟨Memory.read_nil i, Memory.read_nil i⟩
  case output => exact ⟨resetBlock_outValid s, resetBlock_outLen s, resetBlock_outTs s, Memory.read_nil⟩
  case frame => exact ⟨resetBlock_responses s, resetBlock_cfg s⟩

end Sys2Proof.Machine
end

section
/-! SUPPORT. The encoding law (30_encoding.md rules R48 to R53): the fields of the operand, the word of each
format read back by the decoder, and the fields that a decoded command has. -/

namespace Sys2Proof

/-! ### The parts of the operand field -/

theorem bits_index_high (w : Word) : bits w 23 16 = bits w 23 0 / 2 ^ 16 := by
  unfold bits; omega

theorem bits_index (w : Word) : bits w 15 0 = bits w 23 0 % 2 ^ 16 := by
  unfold bits; omega

theorem bits_mode (w : Word) : bits w 23 23 = bits w 23 0 / 2 ^ 23 := by
  unfold bits; omega

theorem bits_duration (w : Word) : bits w 22 0 = bits w 23 0 % 2 ^ 23 := by
  unfold bits; omega

/-! ### The FZ bit -/

theorem toleranceBit_lt (fz : Tolerance) : toleranceBit fz < 2 := by cases fz <;> decide

@[simp] theorem toleranceOfBit_toleranceBit (fz : Tolerance) : toleranceOfBit (toleranceBit fz) = fz := by
  cases fz <;> rfl

theorem toleranceBit_toleranceOfBit {b : Nat} (h : b < 2) : toleranceBit (toleranceOfBit b) = b := by
  interval_cases b <;> rfl

/-! ### Decoding what was encoded -/

theorem decode_encode_formatN {i : Instr} (h : formatNCommand (opcode i) = some i) :
    decode (encode i) = .ok i := by
  obtain ⟨-, hoperand, hwf⟩ := formatNCommand_eq_some h
  rw [← bits_encode_op hwf] at h
  rw [decode_of_formatN h, bits_encode_operand hwf, if_pos hoperand]

theorem decode_encode_getDur {idx : Nat} (h : idx < 2 ^ 16) :
    decode (encode (.getDur idx)) = .ok (.getDur idx) := by
  have hwf : (Instr.getDur idx).wf := h
  have hoperand : bits (encode (.getDur idx)) 23 0 = idx := bits_encode_operand hwf
  rw [decode_of_getDur (bits_encode_op hwf), bits_index_high, bits_index, hoperand,
    if_pos (Nat.div_eq_of_lt h), Nat.mod_eq_of_lt h]

theorem decode_encode_classify (fz : Tolerance) {dur : Nat} (h : dur < 2 ^ 23) :
    decode (encode (.classify fz dur)) = .ok (.classify fz dur) := by
  have hwf : (Instr.classify fz dur).wf := h
  have hoperand : bits (encode (.classify fz dur)) 23 0 = toleranceBit fz * 2 ^ 23 + dur :=
    bits_encode_operand hwf
  have hmode : (toleranceBit fz * 2 ^ 23 + dur) / 2 ^ 23 = toleranceBit fz := by omega
  have hdur : (toleranceBit fz * 2 ^ 23 + dur) % 2 ^ 23 = dur := by omega
  rw [decode_of_classify (bits_encode_op hwf), bits_mode, bits_duration, hoperand, hmode, hdur,
    toleranceOfBit_toleranceBit]

/-- Settles O1: by the format of the command; each format N command is the one its opcode stands for. -/
theorem decodeEncodeRoundTrip : Obligations.DecodeEncodeRoundTrip := by
  intro i hwf
  cases i with
  | getDur idx => exact decode_encode_getDur hwf
  | classify fz dur => exact decode_encode_classify fz hwf
  | _ => exact decode_encode_formatN rfl

/-! ### Encoding what was decoded -/

/-- A decoded command has the opcode and the operand field of its word. -/
theorem fields_of_decode {w : Word} {i : Instr} (hi : decode w = .ok i) :
    opcode i = bits w 31 24 ∧ operandField i = bits w 23 0 := by
  have hlt := bits_lt w 23 0
  obtain h | h | ⟨-, j, h⟩ | h := opcode_map_cases (bits w 31 24)
  · rw [decode_of_classify h] at hi
    cases hi
    refine ⟨h.symm, ?_⟩
    rw [operandField, toleranceBit_toleranceOfBit (bits_lt w 23 23), bits_mode, bits_duration]
    omega
  · rw [decode_of_getDur h] at hi
    split at hi
    case isTrue hhigh =>
      cases hi
      refine ⟨h.symm, ?_⟩
      rw [bits_index_high] at hhigh
      rw [operandField, bits_index]
      omega
    case isFalse => cases hi
  · rw [decode_of_formatN h] at hi
    split at hi
    case isTrue hzero =>
      cases hi
      obtain ⟨hop, hoperand, -⟩ := formatNCommand_eq_some h
      exact ⟨hop, hoperand.trans hzero.symm⟩
    case isFalse => cases hi
  · rw [decode_of_unassigned h] at hi
    cases hi

theorem encode_of_decode {w : Word} {i : Instr} (hi : decode w = .ok i) : encode i = w := by
  obtain ⟨hop, hoperand⟩ := fields_of_decode hi
  refine BitVec.eq_of_toNat_eq ?_
  rw [encode_toNat (wf_of_decode hi), hop, hoperand, ← toNat_eq_bits]

/-- Settles O2: the operands are in range by `wf_of_decode`, and the command's two fields are the word's. -/
theorem decodedWordsEncodeBack : Obligations.DecodedWordsEncodeBack :=
  fun _ _ hi => ⟨wf_of_decode hi, encode_of_decode hi⟩

/-- Settles O4: each word's fields are computed. -/
theorem writtenOutWordsDecode : Obligations.WrittenOutWordsDecode := by
  unfold Obligations.WrittenOutWordsDecode
  decide

end Sys2Proof
end

section
/-! SUPPORT. Steps and the inputs they take (20_memory.md rule R39, 30_encoding.md rules R46, R53 and R55):
which input goes next, what is taken from it, and that no other input and not the configuration changes. -/

namespace Sys2Proof.Machine

/-! ### The input that goes next -/

theorem ready_consumer_of_cons {s : State} {w : Word} {ws : List Word} (h : s.cmds = w :: ws) :
    ready s .consumer = true := by
  simp [ready, h]

theorem ready_producer_of_cons {s : State} {e : EdgeEvent} {es : List EdgeEvent}
    (h : s.edges = e :: es) : ready s .producer = true := by
  simp [ready, h]

/-- An input with something pending keeps `nextSource` from answering none, and what it answers is ready. -/
theorem nextSource_of_only_ready {s : State} {a : Source} (ha : ready s a = true)
    (honly : ∀ b, ready s b = true → b = a) : nextSource s = some a := by
  cases hnext : nextSource s with
  | some b => rw [honly b (nextSource_mem hnext)]
  | none =>
    obtain ⟨hedges, hcmds, hresets⟩ := nextSource_eq_none.1 hnext
    cases a <;> simp [ready, hedges, hcmds, hresets] at ha

theorem nextSource_of_turns {s : State} {a : Source} {ts : List Source} (hts : s.turns = a :: ts)
    (ha : ready s a = true) : nextSource s = some a := by
  have hturn : turn s = a := by simp [turn, hts]
  rw [← hturn] at ha ⊢
  exact nextSource_of_turn ha

theorem nextSource_of_freeTurn {s : State} {a : Source} (hts : s.turns = [])
    (hfree : Config.freeTurn s.draws = a) (ha : ready s a = true) : nextSource s = some a := by
  have hturn : turn s = a := by simp [turn, hts, hfree]
  rw [← hturn] at ha ⊢
  exact nextSource_of_turn ha

/-- Settles O8: the only ready input is the only possible answer of `nextSource`; the other two parts are the
two ways in which `turn` names a ready input. -/
theorem anyReadyInputMayGoNext : Obligations.AnyReadyInputMayGoNext :=
  fun _ _ ha => ⟨nextSource_of_only_ready ha, fun _ => nextSource_of_turns rfl ha,
    fun hts hfree => nextSource_of_freeTurn hts hfree ha⟩

/-! ### The transaction that is taken -/

theorem takeNext_of_edge {s : State} {e : EdgeEvent} {es : List EdgeEvent}
    (hnext : nextSource s = some .producer) (h : s.edges = e :: es) :
    takeNext s =
      some (.edge e, { s with edges := es, turns := s.turns.tail, draws := s.draws + 1 }) := by
  simp [takeNext, hnext, takeFrom, h]

theorem takeNext_of_cmd {s : State} {w : Word} {ws : List Word}
    (hnext : nextSource s = some .consumer) (h : s.cmds = w :: ws) :
    takeNext s =
      some (.cmd w, { s with cmds := ws, turns := s.turns.tail, draws := s.draws + 1 }) := by
  simp [takeNext, hnext, takeFrom, h]

theorem takeNext_of_reset {s : State} {n : Nat} (hnext : nextSource s = some .resetInput)
    (h : s.resets = n + 1) :
    takeNext s =
      some (.reset, { s with resets := n, turns := s.turns.tail, draws := s.draws + 1 }) := by
  simp [takeNext, hnext, takeFrom, h]

theorem step_of_takeNext {s s' : State} {tr : Transaction} (hwf : s.cfg.wf)
    (h : takeNext s = some (tr, s')) : step s = transact tr s' := by
  rw [step, if_pos hwf, h]

theorem step_of_noneReady {s : State} (hwf : s.cfg.wf) (h : noneReady s) : step s = .next s := by
  rw [step, if_pos hwf, takeNext_eq_none.2 h]

theorem transact_of_decode {w : Word} {i : Instr} (h : decode w = .ok i) (s : State) :
    transact (.cmd w) s = exec i s := by
  simp [transact, runCommand, h]

/-- Settles O5: the consumer's oldest word is taken, and decoding says what runs. -/
theorem stepRunsTheDecodedCommand : Obligations.StepRunsTheDecodedCommand := by
  intro s w ws hwf hnext hcmds
  have hstep := step_of_takeNext hwf (takeNext_of_cmd hnext hcmds)
  exact ⟨fun i hi => hstep.trans (transact_of_decode hi _),
    fun r hr => hstep.trans (transact_of_decode_error hr _)⟩

/-- Settles O6: the oldest edge, or one reset, is taken from the input that goes next. -/
theorem stepRunsTheOldestEdgeOrReset : Obligations.StepRunsTheOldestEdgeOrReset :=
  fun _ hwf => ⟨fun _ _ hnext hedges => step_of_takeNext hwf (takeNext_of_edge hnext hedges),
    fun _ hnext hresets => step_of_takeNext hwf (takeNext_of_reset hnext hresets)⟩

/-- Settles O7: nothing is taken. -/
theorem stepWithNothingPendingChangesNothing : Obligations.StepWithNothingPendingChangesNothing :=
  fun _ => step_of_noneReady

/-! ### What a step leaves alone -/

/-- Settles O9: `takeNext` takes the oldest transaction of one input, and running it touches no input. -/
theorem stepsTakeInputsInOrder : Obligations.StepsTakeInputsInOrder := by
  intro s t h
  obtain ⟨-, ⟨hnone, rfl⟩ | ⟨tr, s', htake, hrun⟩⟩ := step_cases h
  · exact .inl ⟨takeNext_eq_none.1 hnone, rfl⟩
  · obtain ⟨-, hedges, hcmds, hresets, -, -⟩ := transact_ports hrun
    obtain ⟨e, es, -, htaken, rfl⟩ | ⟨w, ws, -, htaken, rfl⟩ | ⟨n, -, htaken, rfl⟩ :=
      takeNext_cases htake
    · exact .inr (.inl ⟨⟨e, by rw [htaken, hedges]⟩, hcmds, hresets⟩)
    · exact .inr (.inr (.inl ⟨⟨w, by rw [htaken, hcmds]⟩, hedges, hresets⟩))
    · exact .inr (.inr (.inr ⟨by rw [htaken, hresets], hedges, hcmds⟩))

/-- Taking a transaction changes the ports alone. -/
theorem takeNext_frame {s s' : State} {tr : Transaction} (h : takeNext s = some (tr, s')) :
    s' = { s with
      edges := s'.edges, cmds := s'.cmds, resets := s'.resets, turns := s'.turns
      draws := s'.draws } := by
  obtain ⟨e, es, -, -, rfl⟩ | ⟨w, ws, -, -, rfl⟩ | ⟨n, -, -, rfl⟩ := takeNext_cases h <;> rfl

/-- Settles O11: neither taking a transaction nor running it touches the configuration. -/
theorem stepKeepsTheConfiguration : Obligations.StepKeepsTheConfiguration := by
  intro s t h
  obtain ⟨-, ⟨-, rfl⟩ | ⟨tr, s', htake, hrun⟩⟩ := step_cases h
  · rfl
  · obtain ⟨hcfg, -⟩ := transact_ports hrun
    rw [hcfg, takeNext_frame htake]

/-! ### Presented transactions -/

/-- Settles O15: the first transaction's input has the first turn, and it is that input's oldest; what is left
is the rest of every stream. -/
theorem presentedTransactionsRunInOrder : Obligations.PresentedTransactionsRunInOrder := by
  intro s tr trs ⟨hedges, hcmds, hresets⟩ hturns
  simp only [presentAll_eq, hedges, hcmds, hresets, hturns, List.nil_append, Nat.zero_add]
  cases tr with
  | edge e =>
    exact takeNext_of_edge (nextSource_of_turns rfl (ready_producer_of_cons rfl)) rfl
  | cmd w =>
    exact takeNext_of_cmd (nextSource_of_turns rfl (ready_consumer_of_cons rfl)) rfl
  | reset =>
    exact takeNext_of_reset (nextSource_of_turns rfl (by simp [ready])) (by simp)

end Sys2Proof.Machine
end

section
/-! SUPPORT. What a command can do, said once (`exec_cases`, `transact_cmd_cases`), and from it the statements
about every command: its one response, precise errors, idempotent reads, and what no command writes
(30_encoding.md section 2, 20_memory.md rule R35, 60_exceptions.md rules R99 and R100, 10_state.md). -/

namespace Sys2Proof.Machine

/-! ### The reading commands -/

/-- Reading `⊥` is a fault (R13), here from `OUT_TS`. -/
theorem exec_getTs_of_unwritten {s : State} (hv : s.outValid = true) (hts : s.outTs = none) :
    exec .getTs s = .fault (.readUnwritten .outTs) := by
  simp [exec, execGetTs, readOutTs, hv, hts]

theorem exec_getDur_of_readFault {s : State} {idx : Nat} {f : Fault}
    (htarget : indexTarget s idx = .element) (hread : readOutDur s idx = .error f) :
    exec (.getDur idx) s = .fault f := by
  simp [exec, execGetDur, htarget, hread]

/-- A command that is none of START, STOP and POP answers by the block's own state alone: the same response
whatever has been answered before, and nothing else changed. -/
theorem exec_answers {i : Instr} {s t : State} (hstart : i ≠ .start) (hstop : i ≠ .stop)
    (hpop : i ≠ .pop) (h : exec i s = .next t) :
    ∃ sts d, (sts ≠ .ok → d = 0) ∧ ∀ rs,
      exec i { s with responses := rs } = .next (respond { s with responses := rs } sts d) := by
  cases i with
  | start => exact absurd rfl hstart
  | stop => exact absurd rfl hstop
  | pop => exact absurd rfl hpop
  | nop => exact ⟨.ok, 0, by simp, fun _ => rfl⟩
  | status => exact ⟨.ok, statusWord s, by simp, fun _ => rfl⟩
  | classify fz dur => exact ⟨.ok, classifyData s.cfg fz dur, by simp, fun _ => rfl⟩
  | getLen =>
    obtain hv | hv := Bool.eq_false_or_eq_true s.outValid
    · exact ⟨.ok, dataOf s.outLen, by simp, fun _ => exec_getLen_of_packet hv⟩
    · exact ⟨.empty, 0, by simp, fun _ => exec_getLen_of_noPacket hv⟩
  | getTs =>
    obtain hv | hv := Bool.eq_false_or_eq_true s.outValid
    · obtain hts | ⟨ts, hts⟩ := Option.eq_none_or_eq_some s.outTs
      · simp [exec_getTs_of_unwritten hv hts] at h
      · exact ⟨.ok, dataOf ts, by simp, fun _ => exec_getTs_of_packet hv hts⟩
    · exact ⟨.empty, 0, by simp, fun _ => exec_getTs_of_noPacket hv⟩
  | getDur idx =>
    cases htarget : indexTarget s idx with
    | noPacket => exact ⟨.empty, 0, by simp, fun _ => exec_getDur_of_noPacket htarget⟩
    | outOfRange => exact ⟨.range, 0, by simp, fun _ => exec_getDur_of_outOfRange htarget⟩
    | lastElement =>
      exact ⟨.ok, dataOf s.cfg.termUs, by simp, fun _ => exec_getDur_of_lastElement htarget⟩
    | element =>
      cases hread : readOutDur s idx with
      | ok v =>
        obtain ⟨hcap, hv⟩ := readOutDur_eq_ok.1 hread
        exact ⟨.ok, dataOf v, by simp, fun _ => exec_getDur_of_element htarget hcap hv⟩
      | error f => simp [exec_getDur_of_readFault htarget hread] at h

/-! ### Every command -/

/-- What a command does, if it completes. -/
theorem exec_cases {i : Instr} {s t : State} (h : exec i s = .next t) :
    (i ≠ .start ∧ i ≠ .stop ∧ i ≠ .pop ∧
      ∃ sts d, (sts ≠ .ok → d = 0) ∧ t = respond s sts d) ∨
    (i = .start ∧ t = respond { s with en := true } .ok 0) ∨
    (i = .stop ∧ t = respond { s with en := false, cst := .idle } .ok 0) ∨
    (i = .pop ∧ s.qhead = s.qtail ∧ t = popEmpty s) ∨
    (i = .pop ∧ s.qhead ≠ s.qtail ∧ popPacket s = .ok t) := by
  by_cases hstart : i = .start
  · subst hstart
    cases h
    exact .inr (.inl ⟨rfl, rfl⟩)
  by_cases hstop : i = .stop
  · subst hstop
    cases h
    exact .inr (.inr (.inl ⟨rfl, rfl⟩))
  by_cases hpop : i = .pop
  · subst hpop
    by_cases hempty : s.qhead = s.qtail
    · rw [exec_pop_of_empty hempty] at h
      cases h
      exact .inr (.inr (.inr (.inl ⟨rfl, hempty, rfl⟩)))
    · rw [exec_pop_of_nonempty hempty] at h
      exact .inr (.inr (.inr (.inr ⟨rfl, hempty, finish_eq_next.1 h⟩)))
  · obtain ⟨sts, d, hd, hall⟩ := exec_answers hstart hstop hpop h
    have hexec : exec i s = .next (respond s sts d) := hall s.responses
    rw [hexec] at h
    cases h
    exact .inl ⟨hstart, hstop, hpop, sts, d, hd, rfl⟩

/-- What a command word does, if it completes: it is answered as illegal, or runs its command. -/
theorem transact_cmd_cases {w : Word} {s t : State} (h : transact (.cmd w) s = .next t) :
    (∃ r, decode w = .error r ∧ t = respondIllegal s) ∨ ∃ i, decode w = .ok i ∧ exec i s = .next t := by
  cases hd : decode w with
  | error r =>
    rw [transact_of_decode_error hd] at h
    cases h
    exact .inl ⟨r, rfl, rfl⟩
  | ok i => exact .inr ⟨i, rfl, (transact_of_decode hd s).symm.trans h⟩

/-- POP copying a packet answers OK. -/
theorem popPacket_responses {s t : State} (h : popPacket s = .ok t) :
    t.responses = s.responses ++ [⟨.ok, dataOf t.outLen⟩] := by
  rw [popPacket_frame h]

/-- The response given last is determined by the list. -/
theorem response_unique {rs : List Response} {r r' : Response} (h : rs ++ [r] = rs ++ [r']) : r = r' := by
  simpa using h

/-! ### Responses -/

theorem exec_responds {i : Instr} {s t : State} (h : exec i s = .next t) :
    ∃ r : Response, t.responses = s.responses ++ [r] ∧ (r.sts ≠ .ok → r.data = 0) := by
  obtain ⟨-, -, -, sts, d, hd, rfl⟩ | ⟨-, rfl⟩ | ⟨-, rfl⟩ | ⟨-, -, rfl⟩ | ⟨-, -, hpop⟩ := exec_cases h
  · exact ⟨⟨sts, d⟩, rfl, hd⟩
  · exact ⟨⟨.ok, 0⟩, rfl, fun _ => rfl⟩
  · exact ⟨⟨.ok, 0⟩, rfl, fun _ => rfl⟩
  · exact ⟨⟨.empty, 0⟩, rfl, fun _ => rfl⟩
  · exact ⟨_, popPacket_responses hpop, fun hsts => absurd rfl hsts⟩

/-- Settles O12: an illegal word and each kind of command append one response; the frames of EDGE and RESET
have none. -/
theorem eachCommandGivesOneResponse : Obligations.EachCommandGivesOneResponse := by
  intro s t
  refine ⟨fun w h => ?command, fun e h => ?edge, fun h => ?reset⟩
  case command =>
    obtain ⟨r, -, rfl⟩ | ⟨i, -, hexec⟩ := transact_cmd_cases h
    · exact ⟨⟨.illegal, 0⟩, rfl, fun _ => rfl⟩
    · exact exec_responds hexec
  case edge => rw [edge_frame (transact_edge_eq_next.1 h)]
  case reset =>
    cases h
    rfl

/-- Settles O13: only a reading command and an illegal word answer ILLEGAL, RANGE or EMPTY without having
written anything; POP on an empty queue is the one other source of EMPTY. -/
theorem errorStatusesArePrecise : Obligations.ErrorStatusesArePrecise := by
  intro s t w r h hr
  obtain ⟨x, hx, rfl⟩ | ⟨i, hi, hexec⟩ := transact_cmd_cases h
  · obtain rfl := response_unique hr
    exact ⟨fun _ => rfl, fun hempty => absurd hempty (by simp)⟩
  obtain ⟨-, -, hpop, sts, d, -, rfl⟩ | ⟨-, rfl⟩ | ⟨-, rfl⟩ | ⟨rfl, -, rfl⟩ | ⟨-, -, hpop⟩ :=
    exec_cases hexec
  · obtain rfl := response_unique hr
    exact ⟨fun _ => rfl, fun _ => .inr ⟨by simpa [hi] using hpop, rfl⟩⟩
  · obtain rfl := response_unique hr
    simp
  · obtain rfl := response_unique hr
    simp
  · obtain rfl := response_unique hr
    exact ⟨by simp, fun _ => .inl ⟨hi, rfl⟩⟩
  · obtain rfl := response_unique ((popPacket_responses hpop).symm.trans hr)
    simp

/-- Settles O45: a reading command's response does not depend on those given before it. -/
theorem readCommandsAreIdempotent : Obligations.ReadCommandsAreIdempotent := by
  intro i s t hread h
  obtain ⟨sts, d, -, hall⟩ := exec_answers (by rintro rfl; exact hread) (by rintro rfl; exact hread)
    (by rintro rfl; exact hread) h
  have hfirst : exec i s = .next (respond s sts d) := hall s.responses
  rw [hfirst] at h
  cases h
  exact ⟨⟨sts, d⟩, rfl, hall _⟩

/-! ### What is left alone -/

/-- Settles O46: the frames of `exec_cases`, for POP that of its copy. -/
theorem commandsLeaveTheProducersStateAlone : Obligations.CommandsLeaveTheProducersStateAlone := by
  intro i s t h
  obtain ⟨-, -, -, sts, d, -, rfl⟩ | ⟨rfl, rfl⟩ | ⟨rfl, rfl⟩ | ⟨rfl, -, rfl⟩ | ⟨rfl, -, hpop⟩ :=
    exec_cases h
  · simp
  · simp
  · simp
  · simp [popEmpty]
  · rw [popPacket_frame hpop]
    simp

/-- Settles O47: the frame of every word but POP's, and that of EDGE. -/
theorem popAndResetAloneWriteTheOutputBuffer : Obligations.PopAndResetAloneWriteTheOutputBuffer := by
  intro tr s t h hreset hpop
  cases tr with
  | edge e => rw [edge_frame (transact_edge_eq_next.1 h)]; simp
  | cmd w => rw [transact_frame_cmd h (hpop w rfl)]; simp
  | reset => exact absurd rfl hreset

theorem exec_attaches {i : Instr} {s t : State} (h : exec i s = .next t) (hs : s.en = false)
    (ht : t.en = true) : i = .start := by
  by_contra hstart
  obtain ⟨-, -, -, hen, -, -⟩ := commandsLeaveTheProducersStateAlone i s t h
  by_cases hstop : i = .stop
  · subst hstop
    cases h
    simp at ht
  · simp [hen hstart hstop, hs] at ht

/-- Settles O48: an EDGE keeps `EN`, a RESET clears it, and of the commands only START sets it. -/
theorem onlyStartAttaches : Obligations.OnlyStartAttaches := by
  intro s t h hs ht
  obtain ⟨-, ⟨-, rfl⟩ | ⟨tr, s', htake, hrun⟩⟩ := step_cases h
  · simp [hs] at ht
  obtain ⟨e, es, rfl, -, rfl⟩ | ⟨w, ws, rfl, hcmds, rfl⟩ | ⟨n, rfl, -, rfl⟩ := takeNext_cases htake
  · rw [edge_frame (transact_edge_eq_next.1 hrun)] at ht
    simp [hs] at ht
  · obtain ⟨-, -, htcmds, -⟩ := transact_ports hrun
    obtain ⟨r, -, rfl⟩ | ⟨i, hi, hexec⟩ := transact_cmd_cases hrun
    · simp [respondIllegal_eq, hs] at ht
    · exact ⟨w, ws, hcmds, htcmds, by rw [hi, exec_attaches hexec hs ht]⟩
  · cases hrun
    simp at ht

/-! ### Single commands -/

theorem transact_getDur (idx : BitVec 16) (s : State) :
    transact (.cmd (0x0600#16 ++ idx)) s = exec (.getDur idx.toNat) s := by
  rw [← encode_getDur]
  exact transact_of_decode (decode_encode_getDur idx.isLt) s

/-- Settles O14: what GET_DUR answers, by its word and by its index. -/
theorem illegalThenEmptyThenRange : Obligations.IllegalThenEmptyThenRange := by
  obtain ⟨-, byIndex, highBits⟩ := getDurReadsByIndex
  refine ⟨highBits, fun idx s hv => ?empty, fun idx s hv hidx => ?range⟩
  case empty =>
    obtain ⟨hempty, -⟩ := byIndex s idx.toNat
    exact (transact_getDur idx s).trans (hempty hv)
  case range =>
    obtain ⟨-, hrange, -⟩ := byIndex s idx.toNat
    exact (transact_getDur idx s).trans (hrange hv hidx)

theorem statusWord_eq (s : State) : statusWord s = BitVec.ofNat 32
    (s.qused % 2 ^ 16 * 2 ^ 16 + qcount s % 2 ^ 8 * 2 ^ 8 + (if s.outValid then 8 else 0) +
      (if s.qhead ≠ s.qtail then 4 else 0) + (if s.cst = .accumulating then 2 else 0) +
      (if s.en then 1 else 0)) := by
  rw [statusWord, statusFields_eq, BitVec.toNat_ofNat, BitVec.toNat_ofNat]
  have hne : (nonEmpty s = true) = (s.qhead ≠ s.qtail) := by simp [nonEmpty, queueEmpty]
  have hcst : (s.cst.bit = true) = (s.cst = .accumulating) := by cases s.cst <;> simp [CaptureState.bit]
  simp only [hne, hcst]

/-- Settles O44: the word by its fields; R10 bounds the accounting by `RING_CAP` below 2^16 and the count by
`OFFS_CAP` of at most 2^8. -/
theorem statusReportsItsFields : Obligations.StatusReportsItsFields := by
  refine ⟨?word, fun s => ?effect, fun s hwf hused => ?width, ?operand⟩
  case word => decide
  case effect => exact congrArg (fun d => Host.Outcome.next (respond s .ok d)) (statusWord_eq s)
  case width =>
    obtain ⟨-, ⟨hring, hoffs, hoffs'⟩, -⟩ := hwf
    have hcount : subMod s.qhead s.qtail s.cfg.offsCap < s.cfg.offsCap := subMod_lt _ _ (by omega)
    exact ⟨Nat.mod_eq_of_lt (by omega), Nat.mod_eq_of_lt (by omega)⟩
  case operand => exact refusesOperand_of_formatN (by decide)

theorem dataOf_toNat (v : Nat) : (dataOf v).toNat = v % 2 ^ 32 := BitVec.toNat_ofNat v 32

/-- Settles O55: the answer is `dataOf`, whatever the value's size. -/
theorem wideValuesAnswerTheirLowBits : Obligations.WideValuesAnswerTheirLowBits := by
  intro s v hv _
  refine ⟨?length, ?timestamp, ?last, ?element⟩
  case length =>
    rintro rfl
    exact ⟨_, dataOf_toNat _, exec_getLen_of_packet hv⟩
  case timestamp => exact fun hts => ⟨_, dataOf_toNat _, exec_getTs_of_packet hv hts⟩
  case last =>
    rintro idx hidx rfl
    exact ⟨_, dataOf_toNat _, exec_getDur_of_lastElement (indexTarget_lastElement hv hidx)⟩
  case element =>
    exact fun idx hidx hcap hread =>
      ⟨_, dataOf_toNat _, exec_getDur_of_element (indexTarget_element hv hidx) hcap hread⟩

/-- Settles O38: nothing is read where nothing was written; under the invariant the buffer holds a packet, with
a timestamp and every duration below its length. -/
theorem readingUnwrittenOutputFaults : Obligations.ReadingUnwrittenOutputFaults := by
  refine ⟨fun s => exec_getTs_of_unwritten, fun s idx hv hidx hcap hread => ?duration,
    fun s hI hv => ?written⟩
  case duration =>
    exact exec_getDur_of_readFault (indexTarget_element hv hidx) (by simp [readOutDur, getAt, hcap, hread])
  case written =>
    obtain ⟨p, ⟨hlen, hts, hdurs⟩, -, hcap, -, -⟩ := hI.output hv
    refine ⟨by simp [hts], fun idx hidx => ⟨by omega, ?_⟩⟩
    rw [hlen] at hidx
    simp [hdurs idx hidx, hidx]

end Sys2Proof.Machine
end

section
/-! SUPPORT. The classifier at the default parameters, and CLASSIFY's three bits (40_classifier.md rules R58,
R64 and R65). -/

namespace Sys2Proof.Machine

/-! ### The windows at the default parameters -/

theorem validStrict_iff {c : Config} {d : Nat} :
    validStrict c d = true ↔
      classifyShortLong c d .strict = .short ∨ classifyShortLong c d .strict = .long ∨
        isFixed c d .strict = true := by
  unfold validStrict
  cases classifyShortLong c d .strict <;> simp

/-- Settles O19: each window of the spec with the default reference duration and tolerance put in. -/
theorem defaultWindows : Obligations.DefaultWindows := by
  intro tol d c
  have strictShort : classifyShortLong c d .strict = .short ↔ 340 ≤ d ∧ d ≤ 760 := by
    simp only [classifyShortLong_eq_short_iff, inWindow_iff, c, Config.reference, reduceCtorEq,
      false_and, and_false, or_false]
    omega
  have strictLong : classifyShortLong c d .strict = .long ↔ 1190 ≤ d ∧ d ≤ 1610 := by
    simp only [classifyShortLong_eq_long_iff, inWindow_iff, c, Config.reference, reduceCtorEq,
      false_and, or_false]
    omega
  have strictFixed : isFixed c d .strict = true ↔
      (765 ≤ d ∧ d ≤ 1185) ∨ (5000 ≤ d ∧ d < 6000) := by
    simp only [isFixed_iff, inWindow_iff, c, Config.reference, reduceCtorEq, false_and, or_false]
    omega
  refine ⟨strictShort, strictLong, strictFixed, ?fuzzyShort, ?fuzzyLong, isTerminator_iff, ?valid⟩
  case fuzzyShort =>
    simp only [classifyShortLong_eq_short_iff, inWindow_iff, c, Config.reference, true_and]
    omega
  case fuzzyLong =>
    simp only [classifyShortLong_eq_long_iff, inWindow_iff, c, Config.reference, true_and]
    omega
  case valid =>
    rw [validStrict_iff, strictShort, strictLong, strictFixed]
    omega

/-! ### CLASSIFY's data -/

theorem classCode_ne_three (k : PulseClass) : k.code ≠ 3#2 := by cases k <;> decide

/-- The class is the data's low two bits. -/
theorem classifyData_class (c : Config) (fz : Tolerance) (d : Nat) :
    (classifyData c fz d).extractLsb' 0 2 = (classifyShortLong c d fz).code := by
  unfold classifyData
  generalize (classifyShortLong c d fz).code = k
  cases isTerminator c d <;> cases isFixed c d fz <;> revert k <;> decide

theorem classifyData_eq (c : Config) (fz : Tolerance) (d : Nat) :
    classifyData c fz d = BitVec.ofNat 32 ((if c.termUs ≤ d then 8 else 0) +
      (if isFixed c d fz then 4 else 0) + (classifyShortLong c d fz).code.toNat) := by
  simp only [classifyData, classFields_eq, isTerminator_iff]

/-- In a coherent configuration a terminator is not SHORT or LONG (R73). -/
theorem classifyShortLong_of_terminator {c : Config} (hc : c.coherent) {d : Nat} (fz : Tolerance)
    (hd : c.termUs ≤ d) : classifyShortLong c d fz = .none := by
  by_contra h
  exact Nat.not_lt.2 hd (lt_termUs_of_classify hc h)

/-- A terminator has no class, so its data is the two upper bits. -/
theorem classifyData_of_terminator {c : Config} (hc : c.coherent) (fz : Tolerance) {d : Nat}
    (hd : c.termUs ≤ d) :
    classifyData c fz d = if isFixed c d fz then 0xC else 0x8 := by
  rw [classifyData_eq, classifyShortLong_of_terminator hc fz hd, if_pos hd]
  split <;> rfl

theorem reference_coherent : Config.reference.coherent := by decide

/-- At the default `TERM_US`, `FIXED_TERM_HI` and FIXED windows, a terminator is fixed below 6000 only. -/
theorem isFixed_reference_of_terminator {d : Nat} (fz : Tolerance) (hd : 5000 ≤ d) :
    isFixed Config.reference d fz = true ↔ d < 6000 := by
  simp only [isFixed_iff, inWindow_iff, Config.reference]
  omega

theorem encode_classify_toNat (fz : Tolerance) {dur : Nat} (h : dur < 2 ^ 23) :
    (encode (.classify fz dur)).toNat = 0x07000000 + (if fz = .fuzzy then 0x00800000 else 0) + dur := by
  have hword : (encode (.classify fz dur)).toNat = 7 * 2 ^ 24 + (toleranceBit fz * 2 ^ 23 + dur) :=
    encode_toNat h
  rw [hword]
  cases fz with
  | strict => simp [toleranceBit]
  | fuzzy => simp [toleranceBit, ← Nat.add_assoc]

/-- Settles O21: the word by format C; the answer by `classifyData_eq`; the class by its code; the corner cases
from the default windows and `classifyData_of_terminator`. -/
theorem classifyAnswersThreeBits : Obligations.ClassifyAnswersThreeBits := by
  refine ⟨?word, ?answer, ?legal, ?noThree, ?fuzzyShort, fun fz => ⟨?zero, ?continuation, ?beyond⟩,
    ?sample⟩
  case word => exact fun fz dur => encode_classify_toNat fz
  case answer =>
    intro fz dur s
    show Host.Outcome.next (respond s .ok (classifyData s.cfg fz dur)) = _
    rw [classifyData_eq]
    cases classifyShortLong s.cfg dur fz <;> rfl
  case legal => exact fun low => ⟨_, decode_of_classify (bits_opcode_append 0x07 low)⟩
  case noThree =>
    intro c fz dur
    rw [classifyData_class]
    exact classCode_ne_three _
  case fuzzyShort =>
    intro dur h900 h1050
    obtain ⟨-, -, -, hshort, -⟩ := defaultWindows 500 dur
    exact hshort.2 ⟨by omega, h1050⟩
  case zero => cases fz <;> decide
  case continuation =>
    intro dur h5000 h5999
    rw [classifyData_of_terminator reference_coherent fz h5000,
      if_pos ((isFixed_reference_of_terminator fz h5000).2 (by omega))]
  case beyond =>
    intro dur h6000
    have h5000 : 5000 ≤ dur := by omega
    rw [classifyData_of_terminator reference_coherent fz h5000,
      if_neg (mt (isFixed_reference_of_terminator fz h5000).1 (by omega))]
  case sample => decide

end Sys2Proof.Machine
end

section
/-! SUPPORT. The packet queue as the list it holds (10_state.md rules R21 and R24, 42_queue.md rules R83 to R86):
the state determines the list, and push evicts the least number of oldest packets that leaves room. -/

namespace Sys2Proof.Machine

/-! ### The state determines the list -/

theorem ringHolds_unique {s : State} {start : Nat} {p q : Packet} (hp : ringHolds s start p)
    (hq : ringHolds s start q) : p = q := by
  obtain ⟨plen, pts, pdurs⟩ := hp
  obtain ⟨qlen, qts, qdurs⟩ := hq
  have hlen : p.durs.length = q.durs.length := Option.some.inj (plen.symm.trans qlen)
  have hts : p.ts = q.ts := Option.some.inj (pts.symm.trans qts)
  have hdurs : p.durs = q.durs := by
    refine List.ext_getElem? fun k => ?_
    rcases Nat.lt_or_ge k p.durs.length with hk | hk
    · rw [← pdurs k hk, ← qdurs k (hlen ▸ hk)]
    · rw [List.getElem?_eq_none hk, List.getElem?_eq_none (hlen ▸ hk)]
  cases p
  cases q
  simp_all

/-- The offset entry names the start of the first packet, so two layouts from the same entry agree. -/
theorem laidOut_unique {s : State} {ps qs : List Packet} {i a b : Nat} (hlen : ps.length = qs.length)
    (hps : laidOut s ps i a) (hqs : laidOut s qs i b) : ps = qs := by
  induction ps generalizing qs i a b with
  | nil => exact (List.length_eq_zero_iff.1 hlen.symm).symm
  | cons p ps ih =>
    cases qs with
    | nil => cases hlen
    | cons q qs =>
      obtain ⟨poffs, pring, prest⟩ := hps
      obtain ⟨qoffs, qring, qrest⟩ := hqs
      obtain rfl : a = b := Option.some.inj (poffs.symm.trans qoffs)
      obtain rfl := ringHolds_unique pring qring
      rw [ih (Nat.succ.inj hlen) prest qrest]

theorem queueHolds_unique {s : State} {ps qs : List Packet} (hps : queueHolds s ps)
    (hqs : queueHolds s qs) : ps = qs := by
  obtain ⟨a, -, pslaid, pslen, -⟩ := hps
  obtain ⟨b, -, qslaid, qslen, -⟩ := hqs
  exact laidOut_unique (pslen.trans qslen.symm) pslaid qslaid

/-- Settles O40: both lists are `QCOUNT` long and laid out from the tail's offset entry. -/
theorem queueContentsAreUnique : Obligations.QueueContentsAreUnique :=
  fun _ _ _ => queueHolds_unique

/-! ### Empty and non-empty queues -/

theorem queueHolds_length_lt {s : State} {ps : List Packet} (h : queueHolds s ps)
    (ho : 0 < s.cfg.offsCap) : ps.length < s.cfg.offsCap := by
  obtain ⟨-, -, -, hlen, -⟩ := h
  rw [hlen]
  exact subMod_lt _ _ ho

theorem queueHolds_cons_of_qhead_ne_qtail {s : State} {ps : List Packet} (h : queueHolds s ps)
    (hhead : s.qhead < s.cfg.offsCap) (htail : s.qtail < s.cfg.offsCap) (hne : s.qhead ≠ s.qtail) :
    ∃ p qs, ps = p :: qs := by
  obtain ⟨-, -, -, hlen, -⟩ := h
  refine List.exists_cons_of_ne_nil fun hnil => hne ?_
  subst hnil
  exact (subMod_eq_zero_iff hhead htail).1 hlen.symm

theorem qhead_ne_qtail_of_ne_nil {s : State} {ps : List Packet} (h : queueHolds s ps) (hne : ps ≠ []) :
    s.qhead ≠ s.qtail := by
  obtain ⟨p, qs, rfl⟩ := List.exists_cons_of_ne_nil hne
  exact qhead_ne_qtail_of_queueHolds_cons h

/-! ### The least eviction -/

/-- A queue of `ps` has room for a footprint `f`: space in the ring and a free offset entry (R83, R85). -/
def hasRoom (c : Config) (f : Nat) (ps : List Packet) : Prop :=
  totalSlots c ps + f ≤ c.ringCap ∧ ps.length < c.offsCap - 1

theorem survivors_hasRoom {c : Config} {f : Nat} {ps : List Packet} (hf : f ≤ c.ringCap)
    (ho : 2 ≤ c.offsCap) (hps : ps.length < c.offsCap) : hasRoom c f (survivors c f ps) := by
  obtain ⟨hspace, hentry⟩ := survivors_fit hf ho ps
  have hle := (survivors_suffix c f ps).length_le
  exact ⟨hspace, by omega⟩

/-- Before the survivors are reached there is no room. -/
theorem not_hasRoom_of_longer {c : Config} {f j : Nat} {ps : List Packet} (hps : ps.length < c.offsCap)
    (hj : (survivors c f ps).length < (ps.drop j).length) : ¬ hasRoom c f (ps.drop j) := by
  induction ps generalizing j with
  | nil => simp [survivors_nil] at hj
  | cons p ps ih =>
    rw [survivors_cons] at hj
    split at hj
    case isTrue hfull =>
      cases j with
      | zero => rintro ⟨hspace, hentry⟩; simp only [List.drop_zero] at *; omega
      | succ j => exact ih (Nat.lt_of_succ_lt hps) hj
    case isFalse =>
      rw [List.length_drop] at hj
      omega

/-- Settles O39: `push_spec`, and its number of evictions is the least that leaves room. -/
theorem evictionIsTheLeastThatFits : Obligations.EvictionIsTheLeastThatFits := by
  intro s ps p hq hdr ho hhead htail hp fits
  obtain ⟨t, hpush, hqueue, hframe, ⟨k, hk, hdrop, hwritten, hoffs, hqhead, hqwp, hqtail⟩, -⟩ :=
    push_spec hq hdr hhead htail ho hp
  have hlen := queueHolds_length_lt hq (by omega)
  have hcfg : t.cfg = s.cfg := by rw [hframe]
  obtain ⟨hholds, hother⟩ := hwritten
  refine ⟨t, k, hpush, hdrop ▸ hqueue, ⟨hk, ?fits, ?least⟩, ⟨hoffs, hqhead, hqwp, hqtail, ?used⟩,
    hholds, hother, ?frame⟩
  case fits =>
    have hroom := survivors_hasRoom hp ho hlen
    rwa [hdrop] at hroom
  case least =>
    intro j hj
    refine not_hasRoom_of_longer hlen ?_
    rw [hdrop, List.length_drop, List.length_drop]
    omega
  case used =>
    obtain ⟨-, -, -, -, -, hused, -⟩ := hqueue
    exact hcfg ▸ hused
  case frame => rw [hframe]

end Sys2Proof.Machine
end

section
/-! SUPPORT. EDGE outside the queue (41_capture.md rules R66 to R78): samples at the port, the start of a
session, the capture state, the error budget of the scan, and the last duration of a packet. -/

namespace Sys2Proof.Machine

/-! ### Samples at the port -/

/-- The samples of an EDGE as the block's inputs carry them (log entry 13). -/
def atPort (c : Config) (e : EdgeEvent) : EdgeEvent := ⟨edgeUs c e, edgeMs c e⟩

theorem atPort_wf (c : Config) (e : EdgeEvent) : (atPort c e).wf c := ⟨trunc_lt _ _, trunc_lt _ _⟩

/-- The block sees an EDGE through its port alone. -/
theorem edge_atPort (e : EdgeEvent) (s : State) : edge (atPort s.cfg e) s = edge e s := by
  have hus : edgeUs s.cfg (atPort s.cfg e) = edgeUs s.cfg e := edgeUs_of_wf (atPort_wf s.cfg e)
  have hms : edgeMs s.cfg (atPort s.cfg e) = edgeMs s.cfg e := edgeMs_of_wf (atPort_wf s.cfg e)
  simp only [edge, hus, hms]

/-- Settles O54: the port's samples fit, and they are what EDGE reads. -/
theorem wideSamplesAreTruncatedAtThePort : Obligations.WideSamplesAreTruncatedAtThePort :=
  fun s e => ⟨atPort_wf s.cfg e, (congrArg finish (edge_atPort e s)).symm⟩

/-! ### EDGE in IDLE -/

theorem edge_idle_ignored_of_wf {s : State} {e : EdgeEvent} (he : e.wf s.cfg) (hen : s.en = true)
    (hst : s.cst = .idle)
    (hd : classifyShortLong s.cfg (subMod e.tUs s.lastUs (2 ^ s.cfg.clkW)) (idleMode s.cfg) = .none) :
    edge e s = .ok { s with lastUs := e.tUs } := by
  have hus := edgeUs_of_wf he
  have h := edge_idle_ignored (e := e) hen hst (by rw [hus]; exact hd)
  rwa [hus] at h

/-- A session starts with an empty window, to which the duration is appended (R70, R71). -/
theorem edge_idle_trigger_of_wf {s : State} {e : EdgeEvent} (he : e.wf s.cfg) (hen : s.en = true)
    (hst : s.cst = .idle) (hcap : 0 < s.cfg.scrCap)
    (hd : classifyShortLong s.cfg (subMod e.tUs s.lastUs (2 ^ s.cfg.clkW)) (idleMode s.cfg) ≠ .none) :
    edge e s = .ok { durationAppended { s with swp := 0, sfill := 0 } e.tUs with
      cst := .accumulating } := by
  have hus := edgeUs_of_wf he
  have h := edge_idle_trigger (e := e) hen hst (by rw [hus]; exact hd)
  rw [hus, append_eq_ok _ hcap] at h
  exact h

/-- Settles O24: the two cases of R70, and the bound on a duration that starts a session. -/
theorem idleEdgesIgnoreOrStartASession : Obligations.IdleEdgesIgnoreOrStartASession := by
  intro s e hwf he hen hst d mode
  have ignored : classifyShortLong s.cfg d mode = .none →
      transact (.edge e) s = .next { s with lastUs := e.tUs } :=
    fun hd => transact_edge_eq_next.2 (edge_idle_ignored_of_wf he hen hst hd)
  refine ⟨ignored, fun hd => ?started, fun hc hterm => ?terminator⟩
  case started =>
    obtain ⟨-, -, -, -, ⟨hmin, hcap, -⟩, -⟩ := hwf
    have hswp : (0 + 1) % s.cfg.scrCap = 1 := Nat.mod_eq_of_lt (by omega)
    have hsfill : min (0 + 1) s.cfg.scrCap = 1 := Nat.min_eq_left (by omega)
    refine ⟨_, transact_edge_eq_next.2 (edge_idle_trigger_of_wf he hen hst (by omega) hd), ?_,
      Memory.read_write_same .., fun i hi => Memory.read_write_other _ _ hi⟩
    simp only [durationAppended, hswp, hsfill]
  case terminator =>
    have hnone := classifyShortLong_of_terminator hc mode hterm
    exact ⟨hnone, ignored hnone⟩

/-! ### The capture state -/

theorem edge_idle_cst {s t : State} {e : EdgeEvent} (hen : s.en = true) (hst : s.cst = .idle)
    (hd : classifyShortLong s.cfg (pulseDuration s.cfg (edgeUs s.cfg e) s.lastUs)
      (idleMode s.cfg) ≠ .none)
    (h : edge e s = .ok t) : t.cst = .accumulating := by
  rw [edge_idle_trigger hen hst hd] at h
  rw [(append_frame h).2]

/-- An EDGE in ACCUMULATING that completes has appended, and ended the session just if its duration is a
terminator. -/
theorem edge_accumulating_cst {s t : State} {e : EdgeEvent} (hen : s.en = true)
    (hst : s.cst = .accumulating) (h : edge e s = .ok t) :
    t.cst = if isTerminator s.cfg (pulseDuration s.cfg (edgeUs s.cfg e) s.lastUs) then .idle
      else .accumulating := by
  rw [edge, if_pos hen, edgeDuration] at h
  simp only [hst] at h
  split at h
  case h_1 => cases h
  case h_2 u happend =>
    obtain ⟨-, hu⟩ := append_frame happend
    split at h
    case isTrue hterm => rw [if_pos hterm, boundary_frame h]
    case isFalse hterm =>
      cases h
      rw [if_neg hterm, hu]

/-- Settles O32: the rows of R66's table for an EDGE, and the frames of the commands. -/
theorem captureStateTransitions : Obligations.CaptureStateTransitions := by
  intro s t
  refine ⟨?edge, fun w h => ⟨?stop, ?other⟩, ?reset⟩
  case edge =>
    intro e h d
    have hedge := transact_edge_eq_next.1 h
    refine ⟨fun hen => ?detached, fun hen hst => ⟨fun hd => ?ignored, fun hd => ?started⟩,
      fun hen hst => ?accumulating⟩
    case detached =>
      rw [edge_detached hen] at hedge
      cases hedge
      rfl
    case ignored =>
      rw [edge_idle_ignored hen hst hd] at hedge
      cases hedge
      exact hst
    case started => exact edge_idle_cst hen hst hd hedge
    case accumulating =>
      rw [edge_accumulating_cst hen hst hedge]
      exact ⟨fun hd => if_neg (Bool.eq_false_iff.1 hd), fun hd => if_pos hd⟩
  case stop =>
    intro hstop
    rw [transact_of_decode hstop] at h
    cases h
    exact ⟨rfl, rfl⟩
  case other =>
    intro hstop
    obtain ⟨r, -, rfl⟩ | ⟨i, hi, hexec⟩ := transact_cmd_cases h
    · rfl
    · obtain ⟨-, -, -, -, hcst, -⟩ := commandsLeaveTheProducersStateAlone i s t hexec
      exact hcst (by rintro rfl; exact hstop hi)
  case reset =>
    intro h
    cases h
    rfl

/-! ### The scan and the last duration -/

/-- Settles O26: `scan_spec`, with the terminator as the first error of the budget. -/
theorem scanKeepsTheErrorBudget : Obligations.ScanKeepsTheErrorBudget := by
  intro s d older hwf hwindow
  obtain ⟨-, -, -, -, ⟨hmin, hcap, herr⟩, -⟩ := hwf
  obtain ⟨hbudget, hstop⟩ := scanCount_budget s.cfg older 1 herr
  exact ⟨scanCount s.cfg 1 older, scan_spec hwindow (by omega), scanCount_le s.cfg 1 older, hbudget,
    hstop⟩

/-- Settles O28: `normLast_append`, and the cases of `norm`. -/
theorem onlyTheLastDurationIsNormalised : Obligations.OnlyTheLastDurationIsNormalised :=
  fun c xs x => ⟨normLast_append c xs x, fun h => if_pos h, fun h => if_neg (Nat.not_lt.2 h),
    norm_bounds⟩

end Sys2Proof.Machine
end

section
/-! SUPPORT. The invariant of rule R30, kept by each operation that writes the state: the flags and ports, the
append to the window, push, POP's copy and RESET. -/

namespace Sys2Proof.Machine

/-! ### What the invariant says -/

theorem Inv.lastUs_lt {s : State} (hI : Inv s) : s.lastUs < 2 ^ s.cfg.clkW := by
  obtain ⟨hlast, -⟩ := hI.inRange
  exact hlast

theorem Inv.swp_lt {s : State} (hI : Inv s) : s.swp < s.cfg.scrCap := by
  obtain ⟨-, hswp, -⟩ := hI.inRange
  exact hswp

theorem Inv.qhead_lt {s : State} (hI : Inv s) : s.qhead < s.cfg.offsCap := by
  obtain ⟨-, -, -, hqhead, -⟩ := hI.inRange
  exact hqhead

theorem Inv.qtail_lt {s : State} (hI : Inv s) : s.qtail < s.cfg.offsCap := by
  obtain ⟨-, -, -, -, hqtail, -⟩ := hI.inRange
  exact hqtail

theorem Inv.qwp_lt {s : State} (hI : Inv s) : s.qwp < s.cfg.ringCap := by
  obtain ⟨-, -, -, -, -, -, hqwp, -⟩ := hI.inRange
  exact hqwp

theorem Inv.attached {s : State} (hI : Inv s) (hcst : s.cst = .accumulating) : s.en = true := by
  obtain ⟨hen, -⟩ := hI.session hcst
  exact hen

theorem exists_queueHolds {s : State} (hI : Inv s) : ∃ ps, queueHolds s ps := by
  obtain ⟨-, -, ps, hq, -⟩ := hI.queue
  exact ⟨ps, hq⟩

theorem packetOk_of_queueHolds {s : State} {ps : List Packet} (hI : Inv s) (hq : queueHolds s ps) :
    ∀ p ∈ ps, packetOk s.cfg p := by
  obtain ⟨-, -, qs, hqs, hok⟩ := hI.queue
  rwa [queueHolds_unique hq hqs]

/-- A slot holds the length and every duration of a packet as R30 item 5 says (R10 item 3). -/
theorem packetOk_fits {c : Config} (hc : c.coherent) {p : Packet} (hp : packetOk c p) :
    p.slots c ≤ c.ringCap ∧ p.durs.length < 2 ^ c.slotW ∧ ∀ v ∈ p.durs, v < 2 ^ c.slotW := by
  obtain ⟨⟨hring, ⟨hringMax, -⟩, ⟨hslotW, -⟩, -⟩, -, -, hstored⟩ := hc
  obtain ⟨-, hlen, -⟩ := id hp
  have hpow : 2 ^ 16 ≤ 2 ^ c.slotW := Nat.pow_le_pow_right (by omega) hslotW
  rw [Packet.slots_eq]
  exact ⟨by omega, by omega, fun v hv => Nat.lt_of_le_of_lt (packetOk_le hp v hv) hstored⟩

/-- The timestamp of a queued packet comes from a slot of the ring. -/
theorem ts_lt_of_queueHolds {s : State} {p : Packet} {ps : List Packet} (hI : Inv s)
    (hq : queueHolds s (p :: ps)) : p.ts < 2 ^ s.cfg.slotW := by
  obtain ⟨-, -, -, -, -, -, -, -, -, -, hringFits, -, -⟩ := hI.inRange
  obtain ⟨start, -, ⟨-, ⟨-, hts, -⟩, -⟩, -⟩ := hq
  exact (Memory.lt_of_read hringFits hts).2

/-! ### Flags and ports -/

/-- The queue's contents, in a state that differs outside the queue. -/
theorem queueHolds_of_frame {s t : State} {ps : List Packet} (hq : queueHolds s ps)
    (h : t = { t with
      cfg := s.cfg, ring := s.ring, offs := s.offs, qhead := s.qhead, qtail := s.qtail
      qused := s.qused, qwp := s.qwp }) : queueHolds t ps := by
  rw [h]
  exact queueHolds_transport hq rfl rfl rfl rfl rfl rfl rfl

/-- Flags, `LAST_US` and ports may change, as long as no session and no output packet appears by it. -/
theorem inv_of_flags {s t : State} (hI : Inv s)
    (h : t = { s with
      en := t.en, cst := t.cst, lastUs := t.lastUs, outValid := t.outValid
      edges := t.edges, cmds := t.cmds, resets := t.resets, turns := t.turns, draws := t.draws
      responses := t.responses })
    (hlast : t.lastUs < 2 ^ s.cfg.clkW)
    (hsession : t.cst = .accumulating → s.cst = .accumulating ∧ t.en = true)
    (hout : t.outValid = true → s.outValid = true) : Inv t := by
  rw [h]
  refine ⟨hI.coherent, ?range, hI.canonical, hI.scratch, ?session,
    queueOk_congr (s := s) rfl rfl rfl rfl rfl rfl rfl hI.queue, fun hv => hI.output (hout hv)⟩
  case range =>
    obtain ⟨-, hrest⟩ := hI.inRange
    exact ⟨hlast, hrest⟩
  case session =>
    intro hcst
    obtain ⟨hscst, hen⟩ := hsession hcst
    obtain ⟨-, hentries⟩ := hI.session hscst
    exact ⟨hen, hentries⟩

theorem inv_respond {s : State} (hI : Inv s) (sts : Sts) (d : Word) : Inv (respond s sts d) :=
  inv_of_ports hI rfl

/-! ### The window -/

/-- A session begins with an empty window. -/
theorem inv_emptyWindow {s : State} (hI : Inv s) (hst : s.cst = .idle) :
    Inv { s with swp := 0, sfill := 0 } := by
  obtain ⟨hlast, hswp, -, hrest⟩ := hI.inRange
  refine ⟨hI.coherent, ⟨hlast, Nat.zero_lt_of_lt hswp, Nat.zero_le _, hrest⟩, hI.canonical,
    ⟨fun _ => rfl, fun i hi => absurd hi (Nat.not_lt_zero i)⟩, fun hcst => ?_,
    queueOk_congr (s := s) rfl rfl rfl rfl rfl rfl rfl hI.queue, hI.output⟩
  exact absurd (hst.symm.trans hcst) (by decide)

/-- The append keeps the invariant; where the session goes on its durations must lie below `TERM_US`. -/
theorem inv_durationAppended {s : State} {ds : List Nat} {tUs : Nat} {cst : CaptureState} (hI : Inv s)
    (hds : windowHolds s ds) (htUs : tUs < 2 ^ s.cfg.clkW)
    (hsession : cst = .accumulating → s.en = true ∧
      ∀ x ∈ subMod tUs s.lastUs (2 ^ s.cfg.clkW) :: ds, x < s.cfg.termUs) :
    Inv { durationAppended s tUs with cst := cst } := by
  obtain ⟨-, hswp, hsfill, hqhead, hqtail, hqused, hqwp, houtLen, houtTs, hscr, hrest⟩ := hI.inRange
  obtain ⟨hscrWf, hmemWf⟩ := hI.canonical
  obtain ⟨hfilling, -⟩ := hI.scratch
  have hcap : 0 < s.cfg.scrCap := Nat.zero_lt_of_lt hswp
  have hwindow := windowHolds_durationAppended hds hswp hsfill tUs
  refine ⟨hI.coherent, ?range, ⟨Memory.wf_write hscrWf _ _, hmemWf⟩, ⟨?filling, ?readable⟩, ?session,
    queueOk_congr (s := s) rfl rfl rfl rfl rfl rfl rfl hI.queue, hI.output⟩
  case range =>
    exact ⟨htUs, Nat.mod_lt _ hcap, Nat.min_le_right _ _, hqhead, hqtail, hqused, hqwp, houtLen, houtTs,
      Memory.fits_write hscr hswp (subMod_lt _ _ (Nat.two_pow_pos _)), hrest⟩
  case filling =>
    intro hlt
    have hlt' : min (s.sfill + 1) s.cfg.scrCap < s.cfg.scrCap := hlt
    show (s.swp + 1) % s.cfg.scrCap = min (s.sfill + 1) s.cfg.scrCap
    rw [hfilling (by omega), Nat.mod_eq_of_lt (by omega), Nat.min_eq_left (by omega)]
  case readable => exact isSome_of_windowHolds hwindow
  case session =>
    intro hcst
    obtain ⟨hen, hbelow⟩ := hsession hcst
    refine ⟨hen, Nat.le_min.2 ⟨by omega, hcap⟩, (forall_window_iff hwindow).2 fun x hx => hbelow x ?_⟩
    rw [← appended_cons hcap] at hx
    exact List.mem_of_mem_take hx

/-! ### Push and POP -/

/-- Pushing a packet as R30 item 5 says keeps the invariant; with it what `push_spec` says of the queue. -/
theorem push_inv {s : State} {ps : List Packet} {p : Packet} (hI : Inv s) (hq : queueHolds s ps)
    (hp : packetOk s.cfg p) (hts : p.ts < 2 ^ s.cfg.slotW) :
    ∃ t, push s p.ts p.durs = .ok t ∧ Inv t ∧
      queueHolds t (survivors s.cfg (p.slots s.cfg) ps ++ [p]) ∧
      (∃ k, survivors s.cfg (p.slots s.cfg) ps = ps.drop k ∧ pushedFrom s t k p) ∧
      t = { s with
        ring := t.ring, offs := t.offs, qwp := t.qwp, qused := t.qused, qhead := t.qhead
        qtail := t.qtail } := by
  obtain ⟨⟨-, ⟨-, ho, -⟩, -⟩, hdr, -, -⟩ := hI.coherent
  obtain ⟨hlast, hswp, hsfill, hqhead, hqtail, -, hqwp, houtLen, houtTs, hscr, hring, hoffs, houtDur⟩ :=
    hI.inRange
  obtain ⟨hscrWf, hringWf, hoffsWf, houtWf⟩ := hI.canonical
  obtain ⟨hslots, hlenFits, hdursFit⟩ := packetOk_fits hI.coherent hp
  obtain ⟨t, hpush, hqueue, hframe, ⟨k, -, hdrop, hpushed⟩, hkeepsWf, hkeepsFits⟩ :=
    push_spec hq hdr hqhead hqtail ho hslots
  refine ⟨t, hpush, ?inv, hqueue, ⟨k, hdrop, hpushed⟩, hframe⟩
  have hused : t.qused ≤ s.cfg.ringCap := by
    obtain ⟨-, -, -, -, -, hused, -⟩ := id hqueue
    rw [hframe] at hused
    exact hused
  obtain ⟨-, hoffs', hqhead', hqwp', hqtail'⟩ := hpushed
  have hoffsFits : ∀ c ∈ t.offs, c.1 < s.cfg.offsCap ∧ c.2 < s.cfg.ringCap := by
    intro c hc
    rw [hoffs'] at hc
    rcases Memory.mem_write hc with rfl | hc
    · exact ⟨hqhead, hqwp⟩
    · exact hoffs c hc
  have hok : ∀ q ∈ survivors s.cfg (p.slots s.cfg) ps ++ [p], packetOk s.cfg q := by
    intro q hmem
    rcases List.mem_append.1 hmem with hmem | hmem
    · exact packetOk_of_queueHolds hI hq q ((survivors_suffix _ _ _).subset hmem)
    · rwa [List.mem_singleton.1 hmem]
  rw [hframe] at hqueue
  rw [hframe]
  refine ⟨hI.coherent, ?range, ?canonical, hI.scratch, hI.session,
    queueOk_of_queueHolds hI.coherent hqueue hok, hI.output⟩
  case range =>
    exact ⟨hlast, hswp, hsfill, hqhead' ▸ Nat.mod_lt _ (by omega), hqtail' ▸ Nat.mod_lt _ (by omega),
      hused, hqwp' ▸ Nat.mod_lt _ (by omega), houtLen, houtTs, hscr,
      hkeepsFits hring hts hlenFits hdursFit, hoffsFits, houtDur⟩
  case canonical =>
    exact ⟨hscrWf, hkeepsWf hringWf, hoffs' ▸ Memory.wf_write hoffsWf _ _, houtWf⟩

/-- POP's copy keeps the invariant; with it what `popPacket_spec` says of the queue and the buffer. -/
theorem popPacket_inv {s : State} {p : Packet} {ps : List Packet} (hI : Inv s)
    (hq : queueHolds s (p :: ps)) :
    ∃ t, popPacket s = .ok t ∧ Inv t ∧ queueHolds t ps ∧ outputHolds t p := by
  obtain ⟨⟨-, ⟨-, ho, -⟩, -⟩, -⟩ := hI.coherent
  obtain ⟨hlast, hswp, hsfill, hqhead, hqtail, hqused, hqwp, -, -, hscr, hring, hoffs, houtDur⟩ :=
    hI.inRange
  obtain ⟨hscrWf, hringWf, hoffsWf, houtWf⟩ := hI.canonical
  have hok := packetOk_of_queueHolds hI hq
  have hp : packetOk s.cfg p := hok p (by simp)
  obtain ⟨-, hlen, -⟩ := id hp
  obtain ⟨-, -, hdursFit⟩ := packetOk_fits hI.coherent hp
  have hts := ts_lt_of_queueHolds hI hq
  obtain ⟨t, hpop, hqueue, hout, hframe, -, hkeepsWf, hkeepsFits⟩ :=
    popPacket_spec hq hqhead hqtail hlen
  refine ⟨t, hpop, ?inv, hqueue, hout⟩
  rw [hframe] at hqueue hout
  rw [hframe]
  refine ⟨hI.coherent, ?range, ⟨hscrWf, hringWf, hoffsWf, hkeepsWf houtWf⟩, hI.scratch, hI.session,
    queueOk_of_queueHolds hI.coherent hqueue fun q hmem => hok q (by simp [hmem]),
    fun _ => ⟨p, hout, hp⟩⟩
  exact ⟨hlast, hswp, hsfill, hqhead, Nat.mod_lt _ (by omega),
    Nat.le_trans (Nat.sub_le _ _) hqused, hqwp, hlen, by simpa using hts, hscr, hring, hoffs,
    hkeepsFits houtDur hdursFit⟩

/-! ### RESET -/

theorem queueHolds_nil_resetBlock {s : State} (hring : 0 < s.cfg.ringCap) :
    queueHolds (resetBlock s) [] :=
  ⟨0, hring, trivial, (subMod_self 0 _).symm, rfl, Nat.zero_le _, Nat.zero_mod _⟩

theorem inv_resetBlock {s : State} (hc : s.cfg.coherent) : Inv (resetBlock s) := by
  obtain ⟨⟨hring, ⟨-, ho, -⟩, -, -, ⟨hmin, hcap, -⟩, -⟩, hdr, -⟩ := id hc
  refine ⟨hc, ?range, ⟨Memory.wf_nil, Memory.wf_nil, Memory.wf_nil, Memory.wf_nil⟩,
    ⟨fun _ => rfl, fun i hi => absurd hi (Nat.not_lt_zero i)⟩, (fun hcst => nomatch hcst),
    queueOk_of_queueHolds (s := resetBlock s) hc (queueHolds_nil_resetBlock (by omega)) (by simp),
    (fun hv => nomatch hv)⟩
  exact ⟨trunc_lt _ _, show 0 < s.cfg.scrCap by omega, Nat.zero_le _, show 0 < s.cfg.offsCap by omega,
    show 0 < s.cfg.offsCap by omega, Nat.zero_le _, show 0 < s.cfg.ringCap by omega, Nat.zero_le _,
    by simp, Memory.fits_nil _ _, Memory.fits_nil _ _, by simp, Memory.fits_nil _ _⟩

theorem reset_eq_resetBlock : State.reset = resetBlock State.reset := rfl

/-- Settles O51: the reset state is what RESET makes of it, and the reference configuration is coherent. -/
theorem resetHasTheInvariant : Obligations.ResetHasTheInvariant := by
  refine ⟨?reset, fun s t hc h => ?transaction⟩
  case reset =>
    rw [reset_eq_resetBlock]
    exact inv_resetBlock reference_coherent
  case transaction =>
    cases h
    exact inv_resetBlock hc

end Sys2Proof.Machine
end

section
/-! SUPPORT. The refinement of the capture rules (41_capture.md rules R71 to R79): what an EDGE emits, and from a
state with the invariant the whole of an EDGE in ACCUMULATING. -/

namespace Sys2Proof.Machine

/-! ### What an EDGE emits -/

theorem mem_appended_tail {c : Config} {d x : Nat} {ds : List Nat} (h : x ∈ (appended c d ds).tail) :
    x ∈ ds := by
  unfold appended at h
  cases hcap : c.scrCap with
  | zero => simp [hcap] at h
  | succ n =>
    rw [hcap, List.take_succ_cons] at h
    exact List.mem_of_mem_take h

theorem appended_tail_length_lt {c : Config} {d : Nat} {ds : List Nat} (hcap : 0 < c.scrCap) :
    (appended c d ds).tail.length + 1 ≤ c.scrCap := by
  have hle : (appended c d ds).length ≤ c.scrCap := List.length_take_le _ _
  rw [List.length_tail]
  omega

theorem emission_of_lt {c : Config} {d : Nat} {ds : List Nat} {tMs : Nat} (hd : d < c.termUs) :
    emission c d ds tMs = none :=
  if_neg fun h => Nat.not_le.2 hd (isTerminator_iff.1 h.1)

theorem emission_of_short {c : Config} {d : Nat} {ds : List Nat} {tMs : Nat}
    (h : (emittedPacket c d (appended c d ds).tail tMs).durs.length < c.minPkt) :
    emission c d ds tMs = none :=
  if_neg fun hmin => Nat.not_le.2 h hmin.2

theorem emission_of_packet {c : Config} {d : Nat} {ds : List Nat} {tMs : Nat} (hd : c.termUs ≤ d)
    (h : ¬ (emittedPacket c d (appended c d ds).tail tMs).durs.length < c.minPkt) :
    emission c d ds tMs = some (emittedPacket c d (appended c d ds).tail tMs) :=
  if_pos ⟨isTerminator_iff.2 hd, Nat.not_lt.1 h⟩

/-- Over a window of durations below `TERM_US` every emitted packet is as R30 item 5 says. -/
theorem packetOk_of_emission {c : Config} {d : Nat} {ds : List Nat} {tMs : Nat} {p : Packet}
    (hcap : 0 < c.scrCap) (hds : ∀ x ∈ ds, x < c.termUs) (h : emission c d ds tMs = some p) :
    packetOk c p := by
  unfold emission at h
  split at h
  case isTrue hemit =>
    obtain ⟨hterm, hmin⟩ := hemit
    cases h
    exact emittedPacket_ok (isTerminator_iff.1 hterm) (fun x hx => hds x (mem_appended_tail hx))
      (appended_tail_length_lt hcap) hmin
  case isFalse => cases h

/-! ### EDGE in ACCUMULATING -/

/-- The durations of a session in progress lie below `TERM_US` (R30 item 2). -/
theorem session_lt_termUs {s : State} {ds : List Nat} (hI : Inv s) (hst : s.cst = .accumulating)
    (hds : windowHolds s ds) : ∀ x ∈ ds, x < s.cfg.termUs := by
  obtain ⟨-, -, hbelow⟩ := hI.session hst
  exact (forall_window_iff hds).1 hbelow

/-- `s` to `t` is an EDGE in ACCUMULATING with the duration `d` at the samples of `e`, over the window `ds` and
the queue `ps` (R71 to R79, R83). -/
def capturedFrom (s t : State) (e : EdgeEvent) (d : Nat) (ds : List Nat) (ps : List Packet) : Prop :=
  windowHolds t (appended s.cfg d ds) ∧
  queueHolds t (queueAfter s.cfg (emission s.cfg d ds e.tMs) ps) ∧
  ringsAfter s t ps (emission s.cfg d ds e.tMs) ∧
  t = { s with
    lastUs := e.tUs
    cst := if s.cfg.termUs ≤ d then .idle else .accumulating
    scr := s.scr.write s.swp d
    swp := (s.swp + 1) % s.cfg.scrCap
    sfill := min (s.sfill + 1) s.cfg.scrCap
    ring := t.ring, offs := t.offs, qhead := t.qhead, qtail := t.qtail
    qused := t.qused, qwp := t.qwp }

section Accumulating

variable {s : State} {e : EdgeEvent} {ds : List Nat} {ps : List Packet} {d : Nat}

/-- With nothing emitted the queue is as it was. -/
theorem capturedFrom_without_packet {cst : CaptureState}
    (hd : subMod e.tUs s.lastUs (2 ^ s.cfg.clkW) = d)
    (hwindow : windowHolds (durationAppended s e.tUs) (appended s.cfg d ds)) (hq : queueHolds s ps)
    (hcst : cst = if s.cfg.termUs ≤ d then .idle else .accumulating)
    (hnone : emission s.cfg d ds e.tMs = none) :
    capturedFrom s { durationAppended s e.tUs with cst := cst } e d ds ps := by
  refine ⟨hwindow, ?queue, ?rings, ?frame⟩
  case queue =>
    rw [hnone]
    exact queueHolds_of_frame hq rfl
  case rings =>
    rw [hnone]
    exact ⟨rfl, rfl, rfl, rfl, rfl, rfl⟩
  case frame => rw [durationAppended, hd, hcst]

/-- Emitting a packet is pushing it from the state in which the session has ended. -/
theorem capturedFrom_of_push {t : State} {p : Packet} {k : Nat}
    (hd : subMod e.tUs s.lastUs (2 ^ s.cfg.clkW) = d) (hterm : s.cfg.termUs ≤ d)
    (hwindow : windowHolds (durationAppended s e.tUs) (appended s.cfg d ds))
    (hsome : emission s.cfg d ds e.tMs = some p)
    (hqueue : queueHolds t (survivors s.cfg (p.slots s.cfg) ps ++ [p]))
    (hdrop : survivors s.cfg (p.slots s.cfg) ps = ps.drop k)
    (hpushed : pushedFrom { durationAppended s e.tUs with cst := .idle } t k p)
    (hframe : t = { durationAppended s e.tUs with
      cst := .idle, ring := t.ring, offs := t.offs, qwp := t.qwp, qused := t.qused, qhead := t.qhead
      qtail := t.qtail }) :
    capturedFrom s t e d ds ps := by
  refine ⟨?window, ?queue, ?rings, ?frame⟩
  case window =>
    refine (windowHolds_congr ?_ ?_ ?_ ?_ _).2 hwindow <;> rw [hframe]
  case queue =>
    rw [hsome]
    exact hqueue
  case rings =>
    rw [hsome]
    exact ⟨k, hdrop, hpushed⟩
  case frame =>
    rw [durationAppended, hd] at hframe
    rw [if_pos hterm]
    exact hframe

/-- Every EDGE in ACCUMULATING completes as `capturedFrom` says and keeps the invariant: the append does, and so
does the push of what is emitted. -/
theorem edge_accumulating_spec (hI : Inv s) (he : e.wf s.cfg) (hen : s.en = true)
    (hst : s.cst = .accumulating) (hds : windowHolds s ds) (hq : queueHolds s ps)
    (hd : subMod e.tUs s.lastUs (2 ^ s.cfg.clkW) = d) :
    ∃ t, edge e s = .ok t ∧ Inv t ∧ capturedFrom s t e d ds ps := by
  obtain ⟨-, hswp, hsfill, -⟩ := hI.inRange
  obtain ⟨htUs, -⟩ := id he
  have hcap : 0 < s.cfg.scrCap := Nat.zero_lt_of_lt hswp
  have hbelow := session_lt_termUs hI hst hds
  have hwindow := windowHolds_durationAppended hds hswp hsfill e.tUs
  rw [hd] at hwindow
  have hwhole := hwindow
  rw [← appended_cons hcap] at hwhole
  rw [edge_accumulating_of_wf he hen hst hswp, hd]
  rcases Nat.lt_or_ge d s.cfg.termUs with hlt | hterm
  case inl =>
    have hgoesOn : Inv { durationAppended s e.tUs with cst := .accumulating } :=
      inv_durationAppended hI hds htUs fun _ => ⟨hen, by simpa [hd, hlt] using hbelow⟩
    have hsame : { durationAppended s e.tUs with cst := .accumulating } = durationAppended s e.tUs := by
      rw [durationAppended, hst]
    rw [if_neg (Nat.not_le.2 hlt), ← hsame]
    exact ⟨_, rfl, hgoesOn, capturedFrom_without_packet hd hwhole hq
      (if_neg (Nat.not_le.2 hlt)).symm (emission_of_lt hlt)⟩
  case inr =>
    have hended : Inv { durationAppended s e.tUs with cst := .idle } :=
      inv_durationAppended hI hds htUs nofun
    rw [if_pos hterm, boundary_eq hwindow hcap]
    split
    case isTrue hshort =>
      exact ⟨_, rfl, hended, capturedFrom_without_packet hd hwhole hq (if_pos hterm).symm
        (emission_of_short hshort)⟩
    case isFalse hlong =>
      have hsome := emission_of_packet hterm hlong
      obtain ⟨t, hpush, hInv, hqueue, ⟨k, hdrop, hpushed⟩, hframe⟩ :=
        push_inv hended (queueHolds_of_frame hq rfl)
          (packetOk_of_emission hcap hbelow hsome) (trunc_lt _ _)
      exact ⟨t, hpush, hInv, capturedFrom_of_push hd hterm hwhole hsome hqueue hdrop hpushed hframe⟩

end Accumulating

/-- Settles O29: `edge_accumulating_spec`. -/
theorem edgesRefineTheCaptureRules : Obligations.EdgesRefineTheCaptureRules := by
  intro s e ds ps hI he hen hst hds hq d
  obtain ⟨t, hedge, -, hcaptured⟩ := edge_accumulating_spec hI he hen hst hds hq rfl
  exact ⟨t, transact_edge_eq_next.2 hedge, hcaptured⟩

end Sys2Proof.Machine
end

section
/-! SUPPORT. The queue as a bounded list (42_queue.md, 10_state.md rule R30): from a state with the invariant every
transaction completes, keeps the invariant and acts on the queue as `fifoStep` says; and from it the statements
about steps. -/

namespace Sys2Proof.Machine

/-! ### What each transaction does to the queue -/

/-- What a transaction does to the queue, from `ps` to `qs` (R40, R86, R94). -/
def fifoStep (s t : State) (ps qs : List Packet) : Transaction → Prop
  | .edge _ => qs = ps ∨ ∃ p, qs = survivors s.cfg (p.slots s.cfg) ps ++ [p] ∧ packetOk s.cfg p
  | .cmd w => qs = ps ∨ (decode w = .ok .pop ∧ ∃ p, ps = p :: qs ∧ outputHolds t p)
  | .reset => qs = []

section Transactions

variable {s : State} {ps : List Packet}

/-- An EDGE whose samples fit their inputs, in each of the states R67 tells apart. -/
theorem edge_spec_of_wf {e : EdgeEvent} (hI : Inv s) (hq : queueHolds s ps) (he : e.wf s.cfg) :
    ∃ t qs, edge e s = .ok t ∧ Inv t ∧ queueHolds t qs ∧ fifoStep s t ps qs (.edge e) := by
  obtain ⟨htUs, -⟩ := id he
  have hcap : 0 < s.cfg.scrCap := Nat.zero_lt_of_lt hI.swp_lt
  obtain hen | hen := Bool.eq_false_or_eq_true s.en
  case inr => exact ⟨s, ps, edge_detached hen e, hI, hq, .inl rfl⟩
  case inl =>
    cases hst : s.cst with
    | idle =>
      by_cases hd : classifyShortLong s.cfg (subMod e.tUs s.lastUs (2 ^ s.cfg.clkW))
          (idleMode s.cfg) = .none
      · refine ⟨_, ps, edge_idle_ignored_of_wf he hen hst hd, ?_,
          queueHolds_of_frame hq rfl, .inl rfl⟩
        exact inv_of_flags hI rfl htUs (fun hcst => ⟨hcst, hen⟩) id
      · refine ⟨_, ps, edge_idle_trigger_of_wf he hen hst hcap hd, ?_,
          queueHolds_of_frame hq rfl, .inl rfl⟩
        have hempty : windowHolds { s with swp := 0, sfill := 0 } [] :=
          ⟨rfl, fun i hi => absurd hi (Nat.not_lt_zero i)⟩
        refine inv_durationAppended (inv_emptyWindow hI hst) hempty htUs fun _ => ⟨hen, ?_⟩
        simpa using lt_termUs_of_classify hI.coherent hd
    | accumulating =>
      obtain ⟨ds, hds⟩ := exists_windowHolds hI.scratch.2
      obtain ⟨t, hedge, hInv, -, hqueue, -, -⟩ := edge_accumulating_spec hI he hen hst hds hq rfl
      refine ⟨t, _, hedge, hInv, hqueue, ?_⟩
      cases hemit : emission s.cfg (subMod e.tUs s.lastUs (2 ^ s.cfg.clkW)) ds e.tMs with
      | none => exact .inl rfl
      | some p =>
        exact .inr ⟨p, rfl, packetOk_of_emission hcap (session_lt_termUs hI hst hds) hemit⟩

theorem edge_spec (hI : Inv s) (hq : queueHolds s ps) (e : EdgeEvent) :
    ∃ t qs, edge e s = .ok t ∧ Inv t ∧ queueHolds t qs ∧ fifoStep s t ps qs (.edge e) := by
  rw [← edge_atPort]
  exact edge_spec_of_wf hI hq (atPort_wf s.cfg e)

/-- POP on an empty queue clears `OUT_VALID`, and otherwise takes the oldest packet. -/
theorem exec_pop_spec (hI : Inv s) (hq : queueHolds s ps) :
    ∃ t qs, exec .pop s = .next t ∧ Inv t ∧ queueHolds t qs ∧
      (qs = ps ∨ ∃ p, ps = p :: qs ∧ outputHolds t p) := by
  by_cases hempty : s.qhead = s.qtail
  · refine ⟨popEmpty s, ps, exec_pop_of_empty hempty, ?_,
      queueHolds_of_frame hq rfl, .inl rfl⟩
    exact inv_of_flags hI rfl hI.lastUs_lt (fun hcst => ⟨hcst, hI.attached hcst⟩)
      (fun hv => nomatch hv)
  · obtain ⟨p, qs, rfl⟩ := queueHolds_cons_of_qhead_ne_qtail hq hI.qhead_lt hI.qtail_lt hempty
    obtain ⟨t, hpop, hInv, hqueue, hout⟩ := popPacket_inv hI hq
    exact ⟨t, qs, (exec_pop_of_nonempty hempty).trans (finish_eq_next.2 hpop), hInv, hqueue,
      .inr ⟨p, rfl, hout⟩⟩

theorem bounds_of_indexTarget_element {idx : Nat} (h : indexTarget s idx = .element) :
    s.outValid = true ∧ idx + 1 < s.outLen := by
  unfold indexTarget at h
  split_ifs at h with hv hout hlast
  exact ⟨by simpa using hv, by omega⟩

/-- From a state with the invariant no command but POP reads `⊥`: the output buffer is written as far as it is
read. -/
theorem exec_completes (hI : Inv s) {i : Instr} (hpop : i ≠ .pop) : ∃ t, exec i s = .next t := by
  obtain ⟨-, -, written⟩ := readingUnwrittenOutputFaults
  cases i with
  | pop => exact absurd rfl hpop
  | nop | start | stop | status | classify => exact ⟨_, rfl⟩
  | getLen =>
    obtain hv | hv := Bool.eq_false_or_eq_true s.outValid
    · exact ⟨_, exec_getLen_of_packet hv⟩
    · exact ⟨_, exec_getLen_of_noPacket hv⟩
  | getTs =>
    obtain hv | hv := Bool.eq_false_or_eq_true s.outValid
    · obtain ⟨hts, -⟩ := written s hI hv
      obtain ⟨ts, hts⟩ := Option.ne_none_iff_exists'.1 hts
      exact ⟨_, exec_getTs_of_packet hv hts⟩
    · exact ⟨_, exec_getTs_of_noPacket hv⟩
  | getDur idx =>
    cases htarget : indexTarget s idx with
    | noPacket => exact ⟨_, exec_getDur_of_noPacket htarget⟩
    | outOfRange => exact ⟨_, exec_getDur_of_outOfRange htarget⟩
    | lastElement => exact ⟨_, exec_getDur_of_lastElement htarget⟩
    | element =>
      obtain ⟨hv, hidx⟩ := bounds_of_indexTarget_element htarget
      obtain ⟨-, hdurs⟩ := written s hI hv
      obtain ⟨hcap, hread⟩ := hdurs idx (by omega)
      obtain ⟨v, hread⟩ := Option.ne_none_iff_exists'.1 hread
      exact ⟨_, exec_getDur_of_element htarget hcap hread⟩

/-- Every command but POP completes, keeps the invariant and leaves the queue. -/
theorem exec_spec_of_ne_pop (hI : Inv s) (hq : queueHolds s ps) {i : Instr} (hpop : i ≠ .pop) :
    ∃ t, exec i s = .next t ∧ Inv t ∧ queueHolds t ps := by
  obtain ⟨t, hexec⟩ := exec_completes hI hpop
  refine ⟨t, hexec, ?_⟩
  obtain ⟨-, -, -, sts, d, -, rfl⟩ | ⟨-, rfl⟩ | ⟨-, rfl⟩ | ⟨rfl, -⟩ | ⟨rfl, -⟩ := exec_cases hexec
  · exact ⟨inv_respond hI sts d, queueHolds_of_frame hq rfl⟩
  · exact ⟨inv_of_flags hI rfl hI.lastUs_lt (fun hcst => ⟨hcst, rfl⟩) id,
      queueHolds_of_frame hq rfl⟩
  · exact ⟨inv_of_flags hI rfl hI.lastUs_lt (fun hcst => nomatch hcst) id,
      queueHolds_of_frame hq rfl⟩
  · exact absurd rfl hpop
  · exact absurd rfl hpop

/-- From a state with the invariant every transaction completes, keeps the invariant and acts on the queue as
`fifoStep` says. -/
theorem transact_spec (hI : Inv s) (hq : queueHolds s ps) (tr : Transaction) :
    ∃ t qs, transact tr s = .next t ∧ Inv t ∧ queueHolds t qs ∧ fifoStep s t ps qs tr := by
  cases tr with
  | edge e =>
    obtain ⟨t, qs, hedge, hspec⟩ := edge_spec hI hq e
    exact ⟨t, qs, transact_edge_eq_next.2 hedge, hspec⟩
  | reset =>
    exact ⟨resetBlock s, [], transact_reset s, inv_resetBlock hI.coherent,
      queueHolds_nil_resetBlock (Nat.zero_lt_of_lt hI.qwp_lt), rfl⟩
  | cmd w =>
    cases hdec : decode w with
    | error r =>
      exact ⟨_, ps, transact_of_decode_error hdec s, inv_respond hI .illegal 0,
        queueHolds_of_frame hq rfl, .inl rfl⟩
    | ok i =>
      rw [transact_of_decode hdec]
      by_cases hpop : i = .pop
      · subst hpop
        obtain ⟨t, qs, hexec, hInv, hqueue, hsame | htaken⟩ := exec_pop_spec hI hq
        · exact ⟨t, qs, hexec, hInv, hqueue, .inl hsame⟩
        · exact ⟨t, qs, hexec, hInv, hqueue, .inr ⟨hdec, htaken⟩⟩
      · obtain ⟨t, hexec, hInv, hqueue⟩ := exec_spec_of_ne_pop hI hq hpop
        exact ⟨t, ps, hexec, hInv, hqueue, .inl rfl⟩

theorem transact_keeps_inv {t : State} {tr : Transaction} (hI : Inv s) (h : transact tr s = .next t) :
    Inv t := by
  obtain ⟨ps, hq⟩ := exists_queueHolds hI
  obtain ⟨u, qs, hrun, hInv, -⟩ := transact_spec hI hq tr
  rw [h] at hrun
  cases hrun
  exact hInv

/-- The queue after a transaction that has completed. -/
theorem transact_queue {t : State} {tr : Transaction} (hI : Inv s) (hq : queueHolds s ps)
    (h : transact tr s = .next t) : ∃ qs, queueHolds t qs ∧ fifoStep s t ps qs tr := by
  obtain ⟨u, qs, hrun, -, hspec⟩ := transact_spec hI hq tr
  rw [h] at hrun
  cases hrun
  exact ⟨qs, hspec⟩

end Transactions

/-! ### Steps -/

theorem inv_takeNext {s s' : State} {tr : Transaction} (hI : Inv s) (h : takeNext s = some (tr, s')) :
    Inv s' := by
  have hframe := takeNext_frame h
  refine inv_of_ports hI ?_
  rw [hframe]

theorem queueHolds_takeNext {s s' : State} {tr : Transaction} {ps : List Packet} (hq : queueHolds s ps)
    (h : takeNext s = some (tr, s')) : queueHolds s' ps := by
  rw [takeNext_frame h]
  exact queueHolds_of_frame hq rfl

/-- Settles O52: taking a transaction keeps the invariant, and so does running it. -/
theorem stepKeepsTheInvariant : Obligations.StepKeepsTheInvariant := by
  intro s t hI h
  obtain ⟨-, ⟨-, rfl⟩ | ⟨tr, s', htake, hrun⟩⟩ := step_cases h
  · exact hI
  · exact transact_keeps_inv (inv_takeNext hI htake) hrun

/-- Settles O53: the invariant's configuration is admitted, and every transaction completes (`transact_spec`). -/
theorem noStepStops : Obligations.NoStepStops := by
  intro s hI
  obtain ⟨hwf, -⟩ := hI.coherent
  cases htake : takeNext s with
  | none => exact ⟨s, step_of_noneReady hwf (takeNext_eq_none.1 htake)⟩
  | some taken =>
    obtain ⟨tr, s'⟩ := taken
    obtain ⟨ps, hq⟩ := exists_queueHolds hI
    obtain ⟨t, qs, hrun, -⟩ :=
      transact_spec (inv_takeNext hI htake) (queueHolds_takeNext hq htake) tr
    exact ⟨t, (step_of_takeNext hwf htake).trans hrun⟩

/-- Settles O41: `transact_queue` for the transaction taken. -/
theorem stepsRefineAFifoQueue : Obligations.StepsRefineAFifoQueue := by
  intro s t ps hI hq h
  obtain ⟨-, ⟨-, rfl⟩ | ⟨tr, s', htake, hrun⟩⟩ := step_cases h
  · exact ⟨ps, hq, .inl rfl⟩
  obtain ⟨qs, hqs, hfifo⟩ :=
    transact_queue (inv_takeNext hI htake) (queueHolds_takeNext hq htake) hrun
  obtain ⟨-, hedges, hcmds, hresets, -, -⟩ := transact_ports hrun
  refine ⟨qs, hqs, ?_⟩
  obtain ⟨e, es, rfl, htaken, rfl⟩ | ⟨w, ws, rfl, htaken, rfl⟩ | ⟨n, rfl, htaken, rfl⟩ :=
    takeNext_cases htake
  · obtain hsame | ⟨p, hqsEq, hok⟩ := hfifo
    · exact .inl hsame
    · exact .inr (.inr (.inl ⟨p, e, es, hqsEq, htaken, hedges, hok⟩))
  · obtain hsame | ⟨hpop, p, hpsEq, hout⟩ := hfifo
    · exact .inl hsame
    · exact .inr (.inl ⟨p, w, ws, hpsEq, htaken, hcmds, hpop, hout⟩)
  · exact .inr (.inr (.inr ⟨hfifo, by rw [htaken, hresets]⟩))

/-! ### A queue between two POPs -/

/-- POP on a non-empty queue answers OK. -/
theorem exec_pop_ok {s : State} (hI : Inv s) (hne : s.qhead ≠ s.qtail) :
    ∃ t n, exec .pop s = .next t ∧ t.responses = s.responses ++ [⟨.ok, n⟩] := by
  obtain ⟨ps, hq⟩ := exists_queueHolds hI
  obtain ⟨p, qs, rfl⟩ := queueHolds_cons_of_qhead_ne_qtail hq hI.qhead_lt hI.qtail_lt hne
  obtain ⟨t, hpop, -⟩ := popPacket_inv hI hq
  exact ⟨t, _, (exec_pop_of_nonempty hne).trans (finish_eq_next.2 hpop), popPacket_responses hpop⟩

/-- Settles O42: an EDGE leaves the queue or puts a packet at its end, and a command other than POP leaves it. -/
theorem nonEmptyQueueStaysNonEmpty : Obligations.NonEmptyQueueStaysNonEmpty := by
  intro s t tr hI hne h hreset hpop
  obtain ⟨ps, hq⟩ := exists_queueHolds hI
  obtain ⟨p, ps, rfl⟩ := queueHolds_cons_of_qhead_ne_qtail hq hI.qhead_lt hI.qtail_lt hne
  obtain ⟨qs, hqs, hfifo⟩ := transact_queue hI hq h
  have hqsNe : qs ≠ [] := by
    cases tr with
    | edge e => obtain rfl | ⟨q, rfl, -⟩ := hfifo <;> simp
    | cmd w =>
      obtain rfl | ⟨hw, -⟩ := hfifo
      · simp
      · exact absurd hw (hpop w rfl)
    | reset => exact absurd rfl hreset
  have hne' : t.qhead ≠ t.qtail := qhead_ne_qtail_of_ne_nil hqs hqsNe
  exact ⟨hne', exec_pop_ok (transact_keeps_inv hI h) hne'⟩

end Sys2Proof.Machine
end

section
/-! SUPPORT. The launch of a block (70_reset_and_hazards.md rule R112): START, then a first edge that starts no
session. -/

namespace Sys2Proof.Machine

theorem step_start {s : State} {ws : List Word} {ts : List Source} (hwf : s.cfg.wf)
    (hcmds : s.cmds = encode .start :: ws) (hturns : s.turns = .consumer :: ts) :
    step s = .next { s with
      en := true, cmds := ws, turns := ts, draws := s.draws + 1
      responses := s.responses ++ [⟨.ok, 0⟩] } := by
  have hnext := nextSource_of_turns hturns (ready_consumer_of_cons hcmds)
  rw [step_of_takeNext hwf (takeNext_of_cmd hnext hcmds),
    transact_of_decode (decode_encode_formatN rfl), hturns]
  rfl

theorem step_ignored_edge {s : State} {e : EdgeEvent} {es : List EdgeEvent} {ts : List Source}
    (hwf : s.cfg.wf) (hen : s.en = true) (hst : s.cst = .idle) (hedges : s.edges = e :: es)
    (hturns : s.turns = .producer :: ts)
    (hd : classifyShortLong s.cfg (pulseDuration s.cfg (edgeUs s.cfg e) s.lastUs)
      (idleMode s.cfg) = .none) :
    step s = .next { s with
      lastUs := edgeUs s.cfg e, edges := es, turns := ts, draws := s.draws + 1 } := by
  have hnext := nextSource_of_turns hturns (ready_producer_of_cons hedges)
  rw [step_of_takeNext hwf (takeNext_of_edge hnext hedges), hturns]
  exact transact_edge_eq_next.2 (edge_idle_ignored hen hst hd)

/-- Settles O50: `step_start`, then `step_ignored_edge` from the reset state with `EN` set. -/
theorem quietStartSetsTheClockOnly : Obligations.QuietStartSetsTheClockOnly := by
  rintro s v hwf ⟨⟨-, hreset⟩, e, es, ws, ts, hedges, hcmds, hturns, hd⟩
  have hst : s.cst = .idle := by rw [hreset]; rfl
  have hlast : s.lastUs = v := by rw [hreset]
  rw [← hlast] at hd
  refine ⟨_, _, e, step_start hwf hcmds hturns,
    step_ignored_edge (ts := ts) hwf rfl hst hedges rfl hd, by rw [hedges]; rfl, ?_⟩
  rw [hedges, hcmds, hturns]
  rfl

end Sys2Proof.Machine
end
